-- ==== Sys2Proof/Word.lean ====
section
/-! DEFINITION. The word of the machine: one byte. Every memory cell and every register of the LS8 core holds one
(spec 10_state.md R16, R18), and every operand is one (30_encoding.md R53). -/

namespace Sys2Proof

/-- A cell of memory, a register's contents, an opcode byte, an operand byte: an unsigned value 0..255 (R8, R16, R18). -/
abbrev Byte := BitVec 8

end Sys2Proof
end

