-- ==== Sys2Proof/Syntax.lean ====
section
/-! DEFINITION. The instructions of the core: one constructor per row of spec/opcode_table.json (spec 00_scope.md R2,
30_encoding.md R48, R53). -/

namespace Sys2Proof

/-- An instruction with its operand bytes as fetched. An operand is a raw byte: every value 0..255 belongs to the
instruction, and a byte that names no register is an error of execution, not of decoding (R53, R57). The first operand
is the byte after the opcode, the second the byte after that (R55). -/
inductive Instr where
  /-- HLT (R99). -/
  | hlt
  /-- RET (R88). -/
  | ret
  /-- IRET (R100). -/
  | iret
  /-- PUSH r (R85). -/
  | push (r : Byte)
  /-- POP r (R86). -/
  | pop (r : Byte)
  /-- PRN r (R94). -/
  | prn (r : Byte)
  /-- PRA r (R95). -/
  | pra (r : Byte)
  /-- CALL r (R87). -/
  | call (r : Byte)
  /-- JMP r (R89). -/
  | jmp (r : Byte)
  /-- LDI r, imm (R93). -/
  | ldi (r imm : Byte)
  /-- ST a, b (R96). -/
  | st (a b : Byte)
  /-- ADD a, b (R79). -/
  | add (a b : Byte)
  /-- SUB a, b (R80). -/
  | sub (a b : Byte)
  /-- MUL a, b (R81). -/
  | mul (a b : Byte)
  /-- DIV a, b (R82). -/
  | div (a b : Byte)
deriving DecidableEq, Repr

end Sys2Proof
end

