-- ==== Sys2Proof/Decode.lean ====
section
/-! DEFINITION. The Decoder, the dispatch on the opcode byte, and the encoder written from the same table
(spec 30_encoding.md, 40_cycle.md R71). The byte values are those of R57, which the spec supplies from general knowledge
(log entry 1); the structure around them is the spec's. -/

namespace Sys2Proof

/-- The fields of an opcode byte (R49). -/
structure Shape where
  /-- Bits 7-6: the number of operand bytes that follow; 3 for an illegal byte 0xC0..0xFF (R51). -/
  operandCount : Nat
  /-- Bit 5: the byte selects an ALU handler. -/
  isAlu : Bool
  /-- Bit 4: the handler itself sets pc and the Executor does not advance it. -/
  setsPc : Bool
  /-- Bits 3-0: the instruction identity. -/
  id : BitVec 4
deriving DecidableEq, Repr

/-- The Decoder of R50: defined for all 256 bytes, whether or not an instruction has the byte. -/
def decodeShape (op : Byte) : Shape where
  operandCount := (op.extractLsb' 6 2).toNat
  isAlu := op.getLsbD 5
  setsPc := op.getLsbD 4
  id := op.extractLsb' 0 4

/-- The fifteen mnemonics (00_scope.md R2), in the order of the table of R57. -/
inductive Mnemonic where
  | hlt | ret | iret | push | pop | prn | pra | call | jmp | ldi | st | add | sub | mul | div
deriving DecidableEq, Repr

/-- All fifteen. -/
def Mnemonic.all : List Mnemonic :=
  [.hlt, .ret, .iret, .push, .pop, .prn, .pra, .call, .jmp, .ldi, .st, .add, .sub, .mul, .div]

/-- The opcode byte of each mnemonic, in binary as the table of R57 has it
(PRESUMED: the LS8 exercise's values, log entry 1). -/
def Mnemonic.opcode : Mnemonic → Byte
  | .hlt  => 0b00000001#8
  | .ret  => 0b00010001#8
  | .iret => 0b00010011#8
  | .push => 0b01000101#8
  | .pop  => 0b01000110#8
  | .prn  => 0b01000111#8
  | .pra  => 0b01001000#8
  | .call => 0b01010000#8
  | .jmp  => 0b01010100#8
  | .ldi  => 0b10000010#8
  | .st   => 0b10000100#8
  | .add  => 0b10100000#8
  | .sub  => 0b10100001#8
  | .mul  => 0b10100010#8
  | .div  => 0b10100011#8

/-- The mnemonic an opcode byte selects: an exact match of all eight bits (R56, R57), none for an illegal byte (R58). -/
def mnemonicOf (op : Byte) : Option Mnemonic :=
  Mnemonic.all.find? fun m => m.opcode == op

/-- The instruction of a mnemonic with its operand bytes, in the order of R55 (R53: which are used). -/
def Mnemonic.withOperands : Mnemonic → List Byte → Option Instr
  | .hlt,  _           => some .hlt
  | .ret,  _           => some .ret
  | .iret, _           => some .iret
  | .push, o1 :: _     => some (.push o1)
  | .pop,  o1 :: _     => some (.pop o1)
  | .prn,  o1 :: _     => some (.prn o1)
  | .pra,  o1 :: _     => some (.pra o1)
  | .call, o1 :: _     => some (.call o1)
  | .jmp,  o1 :: _     => some (.jmp o1)
  | .ldi,  o1 :: o2 :: _ => some (.ldi o1 o2)
  | .st,   o1 :: o2 :: _ => some (.st o1 o2)
  | .add,  o1 :: o2 :: _ => some (.add o1 o2)
  | .sub,  o1 :: o2 :: _ => some (.sub o1 o2)
  | .mul,  o1 :: o2 :: _ => some (.mul o1 o2)
  | .div,  o1 :: o2 :: _ => some (.div o1 o2)
  | _, _ => none

/-- The Dispatcher (40_cycle.md R71): the instruction an opcode byte and its latched operand bytes stand for, none for
an illegal byte. -/
def dispatch (op : Byte) (operands : List Byte) : Option Instr :=
  (mnemonicOf op).bind fun m => m.withOperands operands

/-- Why a list of bytes does not begin with an instruction. -/
inductive DecodeError where
  /-- There is no byte. -/
  | noOpcode
  /-- The opcode byte asks for more operand bytes than follow; `index` (from 1) is the first one missing. -/
  | missingOperand (op : Byte) (index : Nat)
  /-- All operand bytes are there and no instruction has this opcode byte (R58). -/
  | unknownOpcode (op : Byte)
deriving DecidableEq, Repr

/-- Decode the instruction at the head of a list of bytes, with the bytes after it. As in a cycle, the operand bytes are
taken before the dispatch, whether or not the opcode is defined (40_cycle.md R68, R70). -/
def decode : List Byte → Except DecodeError (Instr × List Byte)
  | [] => .error .noOpcode
  | op :: rest =>
    let count := (decodeShape op).operandCount
    if rest.length < count then .error (.missingOperand op (rest.length + 1))
    else
      match dispatch op (rest.take count) with
      | none => .error (.unknownOpcode op)
      | some i => .ok (i, rest.drop count)

/-- The mnemonic of an instruction. -/
def Instr.mnemonic : Instr → Mnemonic
  | .hlt => .hlt
  | .ret => .ret
  | .iret => .iret
  | .push _ => .push
  | .pop _ => .pop
  | .prn _ => .prn
  | .pra _ => .pra
  | .call _ => .call
  | .jmp _ => .jmp
  | .ldi _ _ => .ldi
  | .st _ _ => .st
  | .add _ _ => .add
  | .sub _ _ => .sub
  | .mul _ _ => .mul
  | .div _ _ => .div

/-- The operand bytes of an instruction, in the order they follow the opcode byte (R55). -/
def Instr.operands : Instr → List Byte
  | .hlt | .ret | .iret => []
  | .push r | .pop r | .prn r | .pra r | .call r | .jmp r => [r]
  | .ldi r imm => [r, imm]
  | .st a b | .add a b | .sub a b | .mul a b | .div a b => [a, b]

/-- The bytes of an instruction: the opcode byte, then the operand bytes (R48). -/
def encode (i : Instr) : List Byte :=
  i.mnemonic.opcode :: i.operands

/-- The most bytes a cycle fetches: an opcode byte and three operand bytes (20_memory.md R38, 30_encoding.md R51). -/
def maxFetch : Nat := 4

/-- The bytes of a number as the opcode table numbers an instruction's bits: bits 7..0 the first byte, bits 15..8 the
second, and so on; every bit from `nbits` up is zero. -/
def tableWordBytes (nbits w : Nat) : List Byte :=
  (List.range maxFetch).map fun k => BitVec.ofNat 8 ((w % 2 ^ nbits) / 2 ^ (8 * k))

/-- The instruction the decoder reads from a word of the opcode table. -/
def decodeTableWord (nbits w : Nat) : Option Instr :=
  match decode (tableWordBytes nbits w) with
  | .ok (i, _) => some i
  | .error _ => none

end Sys2Proof
end

