-- ==== Sys2Proof/Config.lean ====
section
/-! DEFINITION. The OPEN parameters of the core (spec 00_scope.md R7). Their reference values, and the constants the
hardware fixes, stand in Machine/Parameters.lean. -/

namespace Sys2Proof

/-- IRET_MODE (R7, 43_immediate_io_memory.md R100): what the byte of IRET does, no interrupt source existing. -/
inductive IretMode where
  /-- The opcode is omitted: executing it raises UnknownOpcode (the reference value). -/
  | omitted
  /-- IRET is a defined no-op that moves pc past itself. -/
  | noop
deriving DecidableEq, Repr

/-- The parameters the spec leaves OPEN and asks a model to take as arguments (R7). One core has one value of each;
no instruction changes them. OPCODES is fixed to the table (log entry 1); RENDER and CYCLE_BUDGET are the host's and
are arguments of `render` and `run`. -/
structure Config where
  /-- STACK_BOTTOM, the lowest cell of the stack region: 0 ≤ STACK_BOTTOM < SP_INIT = 0xF4. -/
  stackBottom : Fin 0xF4
  /-- IRET_MODE. -/
  iretMode : IretMode
  /-- HLT_ADVANCES_PC (40_cycle.md R72): whether HLT leaves pc at the address after it. -/
  hltAdvancesPc : Bool
deriving DecidableEq, Repr

end Sys2Proof
end

