-- ==== Sys2Proof/Machine/Parameters.lean ====
section
/-! DEFINITION. The constants of the core and the reference values of its open parameters (spec 00_scope.md R7). -/

namespace Sys2Proof.Machine

/-- MEM_SIZE, the N of the rules: 256 cells, addresses 0..255 (R7, 10_state.md R16). -/
abbrev memSize : Nat := 256

/-- SP_INIT: the stack pointer at construction, one above the highest cell of the stack region (R7, R30). -/
def spInit : Byte := 0xF4#8

/-- PC_RESET: the entry point (R7, 20_memory.md R41). -/
def pcReset : Nat := 0

/-- The reference values the spec gives the open parameters (R7): STACK_BOTTOM = 0, IRET_MODE = omitted,
HLT_ADVANCES_PC = false. -/
def referenceConfig : Config where
  stackBottom := 0
  iretMode := .omitted
  hltAdvancesPc := false

end Sys2Proof.Machine
end

