-- ==== Sys2Proof/Machine/State.lean ====
section
/-! DEFINITION. The state of the core as plain data (spec 10_state.md R15 to R33), its state after construction
(70_reset_and_hazards.md R119), and the reasons a step can stop. -/

namespace Sys2Proof.Machine

/-- The number of a general register, R0 to R7 (R18). -/
abbrev RegIdx := Fin 8

/-- SP_INDEX: register 7 is the stack pointer (R19). -/
def sp : RegIdx := 7

/-- The six kinds of fatal error with their payloads (60_exceptions.md R102). Each is part of the core's own state: it is
what a halted core carries. -/
inductive CoreError where
  /-- Dispatch found no handler: the opcode byte and the address of the instruction. -/
  | unknownOpcode (byte : Byte) (address : Nat)
  /-- DIV with a zero divisor register. -/
  | divisionByZero
  /-- A computed address outside 0..255: that address. -/
  | memoryAccessViolation (address : Nat)
  /-- The cell a push or pop would access lies above the stack region. -/
  | stackUnderflow
  /-- The cell a push or pop would access lies below the stack region. -/
  | stackOverflow
  /-- An operand byte used as a register index is 8 or more: the byte and the address of the instruction. -/
  | invalidRegister (byte : Byte) (address : Nat)
deriving DecidableEq, Repr

/-- Why the core is halted (R26). -/
inductive HaltReason where
  /-- The core executed HLT. -/
  | normal
  /-- A fatal error occurred. -/
  | fault (e : CoreError)
  /-- The caller's cycle budget was exhausted or its cancel signal raised. -/
  | stopped
deriving DecidableEq, Repr

/-- The run status (R25). -/
inductive RunStatus where
  | running
  | halted (reason : HaltReason)
deriving DecidableEq, Repr

/-- An event on the output channel (R24). -/
inductive OutEvent where
  /-- Emitted by PRN: the decimal textual representation of the byte. -/
  | dec (v : Byte)
  /-- Emitted by PRA: the character whose code point is the byte. -/
  | chr (v : Byte)
deriving DecidableEq, Repr

/-- The memory (R16): the cells that do not hold zero, by strictly rising address. A cell not listed holds zero, its
value at construction (R17). -/
abbrev Memory := List Host.Cell

/-- The state of the core: the tuple (mem, x, pc, status, out) of R15, and the open parameters of this core (log
entry 2), which no step changes. -/
structure State where
  /-- The 256 memory cells (R16). -/
  mem : Memory
  /-- The register file, R0 to R7 (R18). -/
  regs : Vector Byte 8
  /-- The program counter, a natural number 0..256 (R23). -/
  pc : Nat
  /-- The run status (R25). -/
  status : RunStatus
  /-- The output channel: the events emitted, first one first (R24). -/
  out : List OutEvent
  /-- The model's own field: the values of the open parameters (00_scope.md R7). -/
  config : Config
deriving DecidableEq, Repr

/-- The state at construction of a core with the given parameters (R119): memory zero, R0 to R6 zero, SP = SP_INIT,
pc = 0, running, nothing emitted. -/
def State.construct (c : Config) : State where
  mem := []
  regs := (Vector.replicate 8 0#8).set 7 spInit
  pc := pcReset
  status := .running
  out := []
  config := c

/-- The state after reset, which is construction (R119, R120), the parameters at their reference values. -/
def State.reset : State := State.construct referenceConfig

/-- Why the machine stops without a next state. -/
inductive Fault where
  /-- Raised by `step` alone, on a state whose status is halted: such a state has no cycle (40_cycle.md R67). Safe: the
  machine does not go on there either (log entry 4). -/
  | noCycle (reason : HaltReason)
deriving DecidableEq, Repr

/-- What the model gives no meaning to, by name. -/
inductive Refusal where
  /-- Raised by an arm of exec whose instruction has no meaning yet. No arm of this model raises it. -/
  | notModelled (mnemonic : String)
  /-- Raised by `iretContract` alone: the interrupt return of R101, which no instruction of this core performs and
  which the spec asks a model to refuse by name. Safe. -/
  | iretContract
  /-- Raised by `load`: the program image is longer than memory (70_reset_and_hazards.md R121). Safe: no run starts. -/
  | imageTooLong (length : Nat)
  /-- Raised by `loadFile`: the bytes of the program file are not well-formed UTF-8 (30_encoding.md R64; log entry 27). Safe:
  no run starts. -/
  | notUtf8
  /-- Raised by `loadText`: a line of the program file (numbered from 1) is not an 8-bit binary literal
  (30_encoding.md R64). Safe: no run starts. -/
  | malformedLine (line : Nat)
  /-- Raised by `resume` on a state that is not Halted(Stopped) (40_cycle.md R77). Safe. -/
  | notStopped (status : RunStatus)
deriving DecidableEq, Repr

/-- The outcome of a step or of a meaning. -/
abbrev Result := Host.Outcome State Fault Refusal

end Sys2Proof.Machine
end

