-- ==== Sys2Proof/Machine/Ops.lean ====
section
/-! DEFINITION. The operations every meaning is built of: memory, registers, output, the run status, raising an error,
the stack checks, and the Executor around a handler (spec 00_scope.md R9, 20_memory.md, 40_cycle.md, 42_stack_subroutine.md
R84, 60_exceptions.md R107). -/

namespace Sys2Proof.Machine

/-! ### Memory -/

/-- What a cell holds that nothing has written: zero (R17, R44). -/
def unwrittenByte : Byte := 0#8

/-- The byte of one cell. -/
def Memory.read : Memory → Nat → Byte
  | [], _ => unwrittenByte
  | (b, v) :: rest, a => if b = a then v else Memory.read rest a

/-- Put a cell in front of the first cell of higher address. -/
def Memory.insert (a : Nat) (v : Byte) : Memory → Memory
  | [] => [(a, v)]
  | (b, w) :: rest => if a < b then (a, v) :: (b, w) :: rest else (b, w) :: Memory.insert a v rest

/-- Write one cell and no other (R40). Writing what an unwritten cell holds removes the entry, so that equal memories are
equal lists. -/
def Memory.write (m : Memory) (a : Nat) (v : Byte) : Memory :=
  let others := m.filter fun c => c.1 != a
  if v = unwrittenByte then others else Memory.insert a v others

/-- The canonical form from an address up: addresses strictly rising, each a cell of the machine, no entry that an
unlisted cell would read as. -/
def Memory.wfFrom : Nat → Memory → Bool
  | _, [] => true
  | low, (a, v) :: rest =>
    decide (low ≤ a) && decide (a < memSize) && decide (v ≠ unwrittenByte) && Memory.wfFrom (a + 1) rest

/-- The canonical form of a memory. -/
def Memory.wf (m : Memory) : Bool := Memory.wfFrom 0 m

/-- MemRead(a, 1) of R9: the byte in cell a, checked against the memory size first (R42). -/
def memRead (s : State) (a : Nat) : Except CoreError Byte :=
  if a < memSize then .ok (Memory.read s.mem a) else .error (.memoryAccessViolation a)

/-- MemWrite(a, 1, v) of R9, with the same check first. -/
def memWrite (s : State) (a : Nat) (v : Byte) : Except CoreError State :=
  if a < memSize then .ok { s with mem := Memory.write s.mem a v } else .error (.memoryAccessViolation a)

/-- The bytes of `n` cells from address `a` upward, each read checked, in increasing order of address (40_cycle.md R70). -/
def readBytes (s : State) (a : Nat) : Nat → Except CoreError (List Byte)
  | 0 => .ok []
  | n + 1 => do
    let v ← memRead s a
    let vs ← readBytes s (a + 1) n
    .ok (v :: vs)

/-- Write a list of bytes to consecutive cells from `a` upward. -/
def Memory.writeBytes (m : Memory) (a : Nat) : List Byte → Memory
  | [] => m
  | v :: vs => Memory.writeBytes (Memory.write m a v) (a + 1) vs

/-! ### Registers, program counter, output, status -/

/-- x[r] of R9. Every register is read and written alike; none is hard-wired (R18). -/
def State.getReg (s : State) (r : RegIdx) : Byte := s.regs[r]

/-- x[r] <- v of R9. -/
def State.setReg (s : State) (r : RegIdx) (v : Byte) : State :=
  { s with regs := s.regs.set r.val v r.isLt }

/-- pc <- target of R9. -/
def State.setPc (s : State) (target : Nat) : State := { s with pc := target }

/-- emit(ev) of R9: append an event to the output channel (R24). It is always accepted (60_exceptions.md R114, log entry 12). -/
def State.emit (s : State) (ev : OutEvent) : State := { s with out := s.out ++ [ev] }

/-- halt(reason) of R9. -/
def State.halt (s : State) (reason : HaltReason) : State := { s with status := .halted reason }

/-- Taking an error (60_exceptions.md R107), applied to the state the cycle began in: the status becomes Halted(Fault(e));
memory, registers, pc and output are those of that state. There is no vector, no saved state and no return (R106, R108). -/
def State.raise (s : State) (e : CoreError) : State := s.halt (.fault e)

/-! ### Numbers -/

/-- trunc8(v) of R8: v mod 256, the remainder not negative. -/
def trunc8 (v : Int) : Byte := BitVec.ofNat 8 (v % 256).toNat

/-! ### The stack checks of 42_stack_subroutine.md R84 -/

/-- The highest cell of the stack region, SP_INIT − 1 (10_state.md R30). -/
def stackTop : Int := (spInit.toNat : Int) - 1

/-- push_check(s): the new SP for a push from SP = s, computed on integers without wrap. -/
def pushCheck (c : Config) (s : Byte) : Except CoreError Byte :=
  let t : Int := (s.toNat : Int) - 1
  if t < (c.stackBottom.val : Int) then .error .stackOverflow
  else if t > stackTop then .error .stackUnderflow
  else .ok (trunc8 t)

/-- pop_check(s): the cell to read for a pop from SP = s. -/
def popCheck (c : Config) (s : Byte) : Except CoreError Byte :=
  if (s.toNat : Int) > stackTop then .error .stackUnderflow
  else if (s.toNat : Int) < (c.stackBottom.val : Int) then .error .stackOverflow
  else .ok s

/-- Push one byte-valued expression of the state: SP is decremented and written first, then the cell it points at, the
value being read after SP changed (R85, R87; log entry 9). -/
def pushByte (s : State) (value : State → Byte) : Except CoreError State := do
  let t ← pushCheck s.config (s.getReg sp)
  let s1 := s.setReg sp t
  memWrite s1 (s1.getReg sp).toNat (value s1)

/-! ### The Executor around a handler -/

/-- Step 5 of a cycle (40_cycle.md R68, R72), `t` the state the handler of the byte `op` at address `a` left: pc moves
past the instruction, without wrap, unless the byte's sets_pc bit is set or the handler halted the core. -/
def afterHandler (op : Byte) (a : Nat) (t : State) : State :=
  if t.status = .running ∧ (decodeShape op).setsPc = false then
    t.setPc (a + (decodeShape op).operandCount + 1)
  else t

/-- Steps 4 and 5 of a cycle for one instruction: run its handler, then advance pc as its opcode byte says. An error the
handler raises is taken from the state the cycle began in, so none of the handler's writes take effect (R107). -/
def runHandler (m : Mnemonic) (handler : State → Except CoreError State) (s : State) : Result :=
  match handler s with
  | .ok t => .next (afterHandler m.opcode s.pc t)
  | .error e => .next (s.raise e)

end Sys2Proof.Machine
end

