-- ==== Sys2Proof/Machine/Operands.lean ====
section
/-! DEFINITION. The operand forms of the instructions (spec 30_encoding.md R53): a register operand, resolved by reg(o) of
00_scope.md R9, and an immediate operand, which is the byte itself (R54) and needs no operation. -/

namespace Sys2Proof.Machine

/-- reg(o): the register an operand byte names, or InvalidRegister with the byte and the address of the instruction
(R9, R53; log entry 6). -/
def reg (s : State) (o : Byte) : Except CoreError RegIdx :=
  if h : o.toNat < 8 then .ok ⟨o.toNat, h⟩ else .error (.invalidRegister o s.pc)

/-- Both register operands, the first one checked first (40_cycle.md R74, 60_exceptions.md R104). -/
def regPair (s : State) (o1 o2 : Byte) : Except CoreError (RegIdx × RegIdx) := do
  let a ← reg s o1
  let b ← reg s o2
  .ok (a, b)

end Sys2Proof.Machine
end

