-- ==== Sys2Proof/Machine/Alu.lean ====
section
/-! DEFINITION. The four ALU instructions (spec 41_alu.md R79 to R83). They set no flag: the core has none (10_state.md R22). -/

namespace Sys2Proof.Machine

/-- The sum, wrapped to a byte (R79). -/
def aluAdd (x y : Byte) : Except CoreError Byte := .ok (trunc8 (x.toNat + y.toNat))

/-- The difference, wrapped to a byte (R80). -/
def aluSub (x y : Byte) : Except CoreError Byte := .ok (trunc8 ((x.toNat : Int) - y.toNat))

/-- The low 8 bits of the product (R81). -/
def aluMul (x y : Byte) : Except CoreError Byte := .ok (trunc8 (x.toNat * y.toNat))

/-- The integer quotient, or DivisionByZero (R82). -/
def aluDiv (x y : Byte) : Except CoreError Byte :=
  if y = 0#8 then .error .divisionByZero else .ok (trunc8 ((x.toNat / y.toNat : Nat)))

/-- An ALU handler (40_cycle.md R74): both operand bytes name registers; the first is source and destination. Both values
are read before the write. -/
def aluHandler (f : Byte → Byte → Except CoreError Byte) (o1 o2 : Byte) (s : State) : Except CoreError State := do
  let (a, b) ← regPair s o1 o2
  let v ← f (s.getReg a) (s.getReg b)
  .ok (s.setReg a v)

/-- ADD a, b (R79). -/
def execAdd (a b : Byte) (s : State) : Result := runHandler .add (aluHandler aluAdd a b) s

/-- SUB a, b (R80). -/
def execSub (a b : Byte) (s : State) : Result := runHandler .sub (aluHandler aluSub a b) s

/-- MUL a, b (R81). -/
def execMul (a b : Byte) (s : State) : Result := runHandler .mul (aluHandler aluMul a b) s

/-- DIV a, b (R82). -/
def execDiv (a b : Byte) (s : State) : Result := runHandler .div (aluHandler aluDiv a b) s

end Sys2Proof.Machine
end

