-- ==== Sys2Proof/Machine/Data.lean ====
section
/-! DEFINITION. Immediate load, output and the memory-indirect store: LDI, PRN, PRA, ST (spec 43_immediate_io_memory.md R93
to R98). -/

namespace Sys2Proof.Machine

/-- LDI r, imm (R93): the immediate is the operand byte unchanged (R54). -/
def execLdi (r imm : Byte) (s : State) : Result :=
  runHandler .ldi (fun s => do
    let i ← reg s r
    .ok (s.setReg i imm)) s

/-- PRN r (R94). -/
def execPrn (r : Byte) (s : State) : Result :=
  runHandler .prn (fun s => do
    let i ← reg s r
    .ok (s.emit (.dec (s.getReg i)))) s

/-- PRA r (R95). -/
def execPra (r : Byte) (s : State) : Result :=
  runHandler .pra (fun s => do
    let i ← reg s r
    .ok (s.emit (.chr (s.getReg i)))) s

/-- ST a, b (R96): the byte of register b into the cell whose address register a holds. -/
def execSt (a b : Byte) (s : State) : Result :=
  runHandler .st (fun s => do
    let (i, j) ← regPair s a b
    memWrite s (s.getReg i).toNat (s.getReg j)) s

end Sys2Proof.Machine
end

