-- ==== Sys2Proof/Machine/Stack.lean ====
section
/-! DEFINITION. Stack and subroutine control: PUSH, POP, CALL, RET, JMP (spec 42_stack_subroutine.md R84 to R92). The
statements of each rule are taken in the order written, so an operand R7 is read after an earlier write of SP (log entry 9). -/

namespace Sys2Proof.Machine

/-- PUSH r (R85). -/
def execPush (r : Byte) (s : State) : Result :=
  runHandler .push (fun s => do
    let i ← reg s r
    pushByte s fun s1 => s1.getReg i) s

/-- POP r (R86): the register is written before SP is incremented. -/
def execPop (r : Byte) (s : State) : Result :=
  runHandler .pop (fun s => do
    let i ← reg s r
    let cell ← popCheck s.config (s.getReg sp)
    let v ← memRead s cell.toNat
    let s1 := s.setReg i v
    .ok (s1.setReg sp (trunc8 ((s1.getReg sp).toNat + 1)))) s

/-- The return address of a CALL at `a` (R87): the address after its two bytes, which must be an address of memory
(log entry 10). -/
def returnAddress (a : Nat) : Except CoreError Nat :=
  if a + 2 < memSize then .ok (a + 2) else .error (.memoryAccessViolation (a + 2))

/-- CALL r (R87): the target register is read after the push. -/
def execCall (r : Byte) (s : State) : Result :=
  runHandler .call (fun s => do
    let i ← reg s r
    let ret ← returnAddress s.pc
    let s1 ← pushByte s fun _ => trunc8 ret
    .ok (s1.setPc (s1.getReg i).toNat)) s

/-- RET (R88). -/
def execRet (s : State) : Result :=
  runHandler .ret (fun s => do
    let cell ← popCheck s.config (s.getReg sp)
    let target ← memRead s cell.toNat
    .ok ((s.setPc target.toNat).setReg sp (trunc8 (cell.toNat + 1)))) s

/-- JMP r (R89). -/
def execJmp (r : Byte) (s : State) : Result :=
  runHandler .jmp (fun s => do
    let i ← reg s r
    .ok (s.setPc (s.getReg i).toNat)) s

end Sys2Proof.Machine
end

