-- ==== Sys2Proof/Machine/System.lean ====
section
/-! DEFINITION. The system instructions HLT and IRET (spec 43_immediate_io_memory.md R99 to R101). -/

namespace Sys2Proof.Machine

/-- HLT (R99): the core halts normally. The Executor does not advance pc of a halted core; with HLT_ADVANCES_PC pc is left
at the address after the HLT (40_cycle.md R72). -/
def execHlt (s : State) : Result :=
  runHandler .hlt (fun s =>
    let t := s.halt .normal
    .ok (if s.config.hltAdvancesPc then t.setPc (s.pc + 1) else t)) s

/-- IRET (R100), by IRET_MODE: with the opcode omitted there is no handler and the byte is unknown (40_cycle.md R71; log
entry 3); as a no-op it sets pc past itself, since its byte has the sets_pc bit (R73). -/
def execIret (s : State) : Result :=
  runHandler .iret (fun s =>
    match s.config.iretMode with
    | .omitted => .error (.unknownOpcode Mnemonic.iret.opcode s.pc)
    | .noop => .ok (s.setPc (s.pc + 1))) s

/-- The interrupt return of R101, which pops R6 to R0, a flags value and pc and enables interrupts. The core has neither
flags nor an interrupts-enabled mark, so the spec asks a model to refuse it by name; no instruction performs it. -/
def iretContract (_ : State) : Result := .refused .iretContract

end Sys2Proof.Machine
end

