-- ==== Sys2Proof/Machine/Dispatch.lean ====
section
/-! DEFINITION. The meaning of each instruction, one arm per constructor. -/

namespace Sys2Proof.Machine

/-- The effect of an instruction on the state it is fetched in: steps 4 and 5 of a cycle (spec 40_cycle.md R68). -/
def exec (i : Instr) (s : State) : Host.Outcome State Fault Refusal :=
  match i with
  | .hlt => Sys2Proof.Machine.execHlt s
  | .ret => Sys2Proof.Machine.execRet s
  | .iret => Sys2Proof.Machine.execIret s
  | .push r => Sys2Proof.Machine.execPush r s
  | .pop r => Sys2Proof.Machine.execPop r s
  | .prn r => Sys2Proof.Machine.execPrn r s
  | .pra r => Sys2Proof.Machine.execPra r s
  | .call r => Sys2Proof.Machine.execCall r s
  | .jmp r => Sys2Proof.Machine.execJmp r s
  | .ldi r imm => Sys2Proof.Machine.execLdi r imm s
  | .st a b => Sys2Proof.Machine.execSt a b s
  | .add a b => Sys2Proof.Machine.execAdd a b s
  | .sub a b => Sys2Proof.Machine.execSub a b s
  | .mul a b => Sys2Proof.Machine.execMul a b s
  | .div a b => Sys2Proof.Machine.execDiv a b s

end Sys2Proof.Machine
end

