-- ==== Sys2Proof/Machine/Fetch.lean ====
section
/-! DEFINITION. Fetching an instruction: steps 1 to 4 of a cycle up to the choice of the handler (spec 40_cycle.md R68 to
R71), and placing one where it will be fetched. -/

namespace Sys2Proof.Machine

/-- The opcode byte at pc, its operand bytes whether or not the opcode is defined, and the instruction they select; or the
first error met (60_exceptions.md R104, 1 to 3). -/
def fetch (s : State) : Except CoreError Instr := do
  let op ← memRead s s.pc
  let operands ← readBytes s (s.pc + 1) (decodeShape op).operandCount
  match dispatch op operands with
  | none => .error (.unknownOpcode op s.pc)
  | some i => .ok i

/-- The bytes of memory from an address up to the last cell, as they are. -/
def bytesFrom (m : Memory) (a : Nat) : List Byte :=
  (List.range' a (memSize - a)).map (Memory.read m)

/-- Write the bytes of an instruction word at an address, those that lie within memory. -/
def placeWord (m : Memory) (a nbits w : Nat) : Memory :=
  Memory.writeBytes m a ((tableWordBytes nbits w).take (memSize - a))

end Sys2Proof.Machine
end

