-- ==== Sys2Proof/Machine/Step.lean ====
section
/-! DEFINITION. One cycle of the core (spec 40_cycle.md R67, R68). -/

namespace Sys2Proof.Machine

/-- One cycle. A halted state has none (R67; log entry 4). An error met before the handler is taken like any other (R107). -/
def step (s : State) : Host.Outcome State Fault Refusal :=
  match s.status with
  | .halted reason => .fault (.noCycle reason)
  | .running =>
    match fetch s with
    | .error e => .next (s.raise e)
    | .ok i => exec i s

/-- The state with an instruction word of the opcode table stored at pc and the core running, so that the next step
fetches and runs it (log entry 16). -/
def State.withFetchWord (s : State) (nbits w : Nat) : State :=
  { s with mem := placeWord s.mem s.pc nbits w, status := .running }

end Sys2Proof.Machine
end

