-- ==== Sys2Proof/Laws/Decode.lean ====
section
/-! SUPPORT. The opcode table selects by exact match, and an instruction has as many operand bytes as its opcode byte says. -/

namespace Sys2Proof

/-- No two mnemonics have one opcode byte (spec 30_encoding.md R60). -/
theorem opcode_injective : ∀ m m' : Mnemonic, m.opcode = m'.opcode → m = m' := by
  intro m m' h
  cases m <;> cases m' <;> first | rfl | (exact absurd h (by decide))

@[simp] theorem mnemonicOf_opcode (m : Mnemonic) : mnemonicOf m.opcode = some m := by
  cases m <;> decide

theorem mnemonicOf_eq_some {op : Byte} {m : Mnemonic} (h : mnemonicOf op = some m) : m.opcode = op := by
  simpa using List.find?_some h

/-- The operand count of each opcode byte (R61). -/
theorem operandCount_opcode (m : Mnemonic) : (decodeShape m.opcode).operandCount =
    match m with
    | .hlt | .ret | .iret => 0
    | .push | .pop | .prn | .pra | .call | .jmp => 1
    | .ldi | .st | .add | .sub | .mul | .div => 2 := by
  cases m <;> decide

/-- The sets_pc bit of each opcode byte (R61). -/
theorem setsPc_opcode (m : Mnemonic) : (decodeShape m.opcode).setsPc =
    match m with
    | .ret | .iret | .call | .jmp => true
    | .hlt | .push | .pop | .prn | .pra | .ldi | .st | .add | .sub | .mul | .div => false := by
  cases m <;> decide

/-- An opcode byte's operand count is the number of operand bytes of its instructions (R48, R49). -/
theorem operands_length (i : Instr) : i.operands.length = (decodeShape i.mnemonic.opcode).operandCount := by
  rw [operandCount_opcode]
  cases i <;> rfl

/-- The operand bytes and the mnemonic of an instruction give it back. -/
@[simp] theorem withOperands_operands (i : Instr) : i.mnemonic.withOperands i.operands = some i := by
  cases i <;> rfl

@[simp] theorem dispatch_encoded (i : Instr) : dispatch i.mnemonic.opcode i.operands = some i := by
  simp [dispatch]

/-- What a dispatch answers has the opcode byte's mnemonic and, given as many operands as the byte says, those operands. -/
theorem dispatch_eq_some {op : Byte} {os : List Byte} {i : Instr} (h : dispatch op os = some i)
    (hlen : os.length = (decodeShape op).operandCount) : op = i.mnemonic.opcode ∧ os = i.operands := by
  obtain ⟨m, hm, hi⟩ := Option.bind_eq_some_iff.mp h
  obtain rfl := mnemonicOf_eq_some hm
  rw [operandCount_opcode] at hlen
  rcases os with _ | ⟨o1, _ | ⟨o2, _ | ⟨o3, os⟩⟩⟩ <;> cases m <;> simp_all [Mnemonic.withOperands] <;>
    (subst hi; exact ⟨rfl, rfl⟩)

end Sys2Proof
end

