-- ==== Sys2Proof/Laws/PerInstr.lean ====
section
/-! SUPPORT. Statements about an instruction as syntax, one lemma per constructor. -/

namespace Sys2Proof.Laws.EncodedLength

/-- An instruction's bytes are one more than the operand count of the first of them, and are 1, 2 or 3
(spec 30_encoding.md R48, R52). -/
def Statement (i : Instr) : Prop :=
  (encode i).length = (decodeShape i.mnemonic.opcode).operandCount + 1 ∧ (encode i).length ∈ [1, 2, 3]

/-- The first half holds of every instruction; the second is read off its operands. -/
theorem of_operands (i : Instr) (h : decide (i.operands.length ≤ 2) = true) : Statement i := by
  replace h := of_decide_eq_true h
  refine ⟨by simp [encode, operands_length], ?_⟩
  simp only [encode, List.length_cons, List.mem_cons, List.not_mem_nil, or_false]
  omega

theorem hlt : Statement .hlt := of_operands _ rfl
theorem ret : Statement .ret := of_operands _ rfl
theorem iret : Statement .iret := of_operands _ rfl
theorem push (r : Byte) : Statement (.push r) := of_operands _ rfl
theorem pop (r : Byte) : Statement (.pop r) := of_operands _ rfl
theorem prn (r : Byte) : Statement (.prn r) := of_operands _ rfl
theorem pra (r : Byte) : Statement (.pra r) := of_operands _ rfl
theorem call (r : Byte) : Statement (.call r) := of_operands _ rfl
theorem jmp (r : Byte) : Statement (.jmp r) := of_operands _ rfl
theorem ldi (r imm : Byte) : Statement (.ldi r imm) := of_operands _ rfl
theorem st (a b : Byte) : Statement (.st a b) := of_operands _ rfl
theorem add (a b : Byte) : Statement (.add a b) := of_operands _ rfl
theorem sub (a b : Byte) : Statement (.sub a b) := of_operands _ rfl
theorem mul (a b : Byte) : Statement (.mul a b) := of_operands _ rfl
theorem div (a b : Byte) : Statement (.div a b) := of_operands _ rfl

end Sys2Proof.Laws.EncodedLength
end

