-- ==== Sys2Proof/Machine/Utf8.lean ====
section
/-! DEFINITION. UTF-8, in which a program file is written (spec 30_encoding.md R64) and in which the reference rendering writes
output (43_immediate_io_memory.md R97). The spec names the encoding; its bit layout is general knowledge (log entry 27). -/

namespace Sys2Proof.Machine

/-- The UTF-8 bytes of a character. -/
def utf8Bytes (c : Char) : List Byte :=
  let n := c.toNat
  let tail (k : Nat) : Byte := BitVec.ofNat 8 (0x80 + n / 64 ^ k % 64)
  if n < 0x80 then [BitVec.ofNat 8 n]
  else if n < 0x800 then [BitVec.ofNat 8 (0xC0 + n / 64), tail 0]
  else if n < 0x10000 then [BitVec.ofNat 8 (0xE0 + n / 64 ^ 2), tail 1, tail 0]
  else [BitVec.ofNat 8 (0xF0 + n / 64 ^ 3), tail 2, tail 1, tail 0]

/-- A character whose bytes are being read. -/
structure Utf8Pending where
  /-- The bits read so far, as a number. -/
  value : Nat
  /-- How many bytes are still to come. -/
  remaining : Nat
  /-- The least code point that takes this many bytes: a smaller one is an overlong form. -/
  least : Nat
deriving DecidableEq, Repr

/-- What the first byte of a character begins; none for a continuation byte and for 0xF8 and above. -/
def utf8Lead (b : Byte) : Option Utf8Pending :=
  let n := b.toNat
  if n < 0x80 then some ⟨n, 0, 0⟩
  else if n < 0xC0 then none
  else if n < 0xE0 then some ⟨n - 0xC0, 1, 0x80⟩
  else if n < 0xF0 then some ⟨n - 0xE0, 2, 0x800⟩
  else if n < 0xF8 then some ⟨n - 0xF0, 3, 0x10000⟩
  else none

/-- Take a continuation byte, 0x80..0xBF, into the character being read. -/
def utf8Continue (p : Utf8Pending) (b : Byte) : Option Utf8Pending :=
  if b.toNat / 64 = 2 then some ⟨p.value * 64 + b.toNat % 64, p.remaining - 1, p.least⟩ else none

/-- The character whose bytes have all been read: none for an overlong form, a surrogate or a value above U+10FFFF. -/
def utf8Finish (p : Utf8Pending) : Option Char :=
  if p.least ≤ p.value ∧ p.value.isValidChar then some (Char.ofNat p.value) else none

/-- The text of the bytes of a stream, `pending` being the character in the middle of which they begin, if any. -/
def textFrom (pending : Option Utf8Pending) : List Byte → Option (List Char)
  | [] => if pending.isNone then some [] else none
  | b :: bs =>
    match pending.elim (utf8Lead b) (fun p => utf8Continue p b) with
    | none => none
    | some p =>
      if p.remaining = 0 then (utf8Finish p).bind fun c => (textFrom none bs).map (c :: ·)
      else textFrom (some p) bs

/-- The text of the bytes of a UTF-8 stream, none when they are not well-formed UTF-8. -/
def textOfBytes (bytes : List Byte) : Option (List Char) := textFrom none bytes

end Sys2Proof.Machine
end

