-- ==== Sys2Proof/Machine/Interface.lean ====
section
/-! DEFINITION. What the host can do to the core: load an image, run with a budget and a cancel signal, resume, and render
the output (spec 70_reset_and_hazards.md R121 to R124, 40_cycle.md R76, R77, 30_encoding.md R64, 43_immediate_io_memory.md
R97). Construction is `State.construct`; inspection is reading the fields of a state. -/

namespace Sys2Proof.Machine

/-! ### Loading -/

/-- Load an image from address 0 (R121), refused when it is longer than memory. The spec lets the host load once, before the
first cycle (R124), and gives a load at any other time no outcome. DESIGN CHOICE (log entry 26): here it is the same
operation on every state, a second load or one on a halted core included: it writes the image's cells and changes nothing
else. -/
def load (image : List Byte) (s : State) : Result :=
  if image.length ≤ memSize then .next { s with mem := Memory.writeBytes s.mem 0 image }
  else .refused (.imageTooLong image.length)

/-- Cut a text into its lines at the line feeds. -/
def splitLines : List Char → List (List Char)
  | [] => [[]]
  | c :: cs =>
    if c = '\n' then [] :: splitLines cs
    else
      match splitLines cs with
      | [] => [[c]]
      | l :: ls => (c :: l) :: ls

/-- A line without its trailing comment, from the first `#` on, and without white space at its ends (R64). -/
def stripLine (line : List Char) : List Char :=
  let body := line.takeWhile (· ≠ '#')
  ((body.dropWhile Char.isWhitespace).reverse.dropWhile Char.isWhitespace).reverse

/-- The value of a string of binary digits, most significant first, none if it holds another character (R64). -/
def binaryValue (digits : List Char) : Option Nat :=
  digits.foldlM (fun v c => if c = '0' then some (2 * v) else if c = '1' then some (2 * v + 1) else none) 0

/-- What a line of a program file stands for. -/
inductive FileLine where
  /-- Empty once stripped: skipped. -/
  | blank
  /-- One byte of the image. -/
  | byte (v : Byte)
  /-- Anything else: the loader refuses the file. -/
  | malformed
deriving DecidableEq, Repr

/-- Process one line of a program file (R64): skipped when empty, else 1 to 8 binary digits, else malformed. -/
def parseLine (line : List Char) : FileLine :=
  match stripLine line with
  | [] => .blank
  | c :: cs =>
    if (c :: cs).length ≤ 8 then
      match binaryValue (c :: cs) with
      | some v => .byte (BitVec.ofNat 8 v)
      | none => .malformed
    else .malformed

/-- The image of the lines of a program file in file order, the first of them numbered `n` (R64, R122). -/
def imageOfLines (n : Nat) : List (List Char) → Except Refusal (List Byte)
  | [] => .ok []
  | l :: ls =>
    match parseLine l with
    | .malformed => .error (.malformedLine n)
    | .blank => imageOfLines (n + 1) ls
    | .byte v => do
      let vs ← imageOfLines (n + 1) ls
      .ok (v :: vs)

/-- The image of the text of a program file (R64). -/
def imageOfText (text : List Char) : Except Refusal (List Byte) := imageOfLines 1 (splitLines text)

/-- Load the text of a program file (R64, R121, R122); on any state, as `load` (log entry 26). -/
def loadText (text : List Char) (s : State) : Result :=
  match imageOfText text with
  | .ok image => load image s
  | .error r => .refused r

/-- Load a program file given as the bytes of its UTF-8 stream (R64): refused when they are not well-formed UTF-8 (log entry
27); on any state, as `load` (log entry 26). -/
def loadFile (file : List Byte) (s : State) : Result :=
  match textOfBytes file with
  | some text => loadText text s
  | none => .refused .notUtf8

/-! ### Running -/

/-- Whether the caller stops the run after `n` cycles: its budget is used up or its cancel signal is raised (R76). -/
def stopWanted (budget : Option Nat) (cancel : Nat → Bool) (n : Nat) : Bool :=
  budget == some n || cancel n

/-- The run loop of R76 after `n` cycles. The stop condition is tested between cycles only; `cancel n` is the cancel signal
as sampled after `n` cycles. `fuel` bounds the cycles this definition may still run and is not the caller's budget: none
means that the run has not ended within it (log entry 13). -/
def runFrom (budget : Option Nat) (cancel : Nat → Bool) : Nat → Nat → State → Option State
  | fuel, n, s =>
    match s.status with
    | .halted _ => some s
    | .running =>
      if stopWanted budget cancel n then some (s.halt .stopped)
      else
        match fuel with
        | 0 => none
        | fuel + 1 =>
          match step s with
          | .next t => runFrom budget cancel fuel (n + 1) t
          | .fault _ => none
          | .refused _ => none

/-- run(S, B, cancel) of R76, up to `fuel` cycles. -/
def run (budget : Option Nat) (cancel : Nat → Bool) (fuel : Nat) (s : State) : Option State :=
  runFrom budget cancel fuel 0 s

/-- A cancel signal that is never raised. -/
def noCancel : Nat → Bool := fun _ => false

/-- Resume a stopped core (R77): only from Halted(Stopped), by setting the status back to Running. -/
def resume (s : State) : Result :=
  if s.status = .halted .stopped then .next { s with status := .running } else .refused (.notStopped s.status)

/-! ### Rendering -/

/-- The reference text of an event (R97): the decimal digits of a byte without leading zero, or the character U+0000 + v. -/
def OutEvent.text : OutEvent → List Char
  | .dec v => Nat.toDigits 10 v.toNat
  | .chr v => [Char.ofNat v.toNat]

/-- The open parameter RENDER (00_scope.md R7, R97): how the caller turns the event list into text, and text into the bytes
of its stream. Any rendering is one; nothing is fixed of separators, line ends or encoding (log entry 15). -/
structure Renderer where
  /-- The text of an event list, with whatever stands before, between and after the events. -/
  text : List OutEvent → List Char
  /-- The encoding of a text in the stream. -/
  bytes : List Char → List Byte

/-- The output as text, by the caller's RENDER (R97). -/
def render (r : Renderer) (out : List OutEvent) : List Char := r.text out

/-- The output as the bytes of the stream, by the caller's RENDER. -/
def renderBytes (r : Renderer) (out : List OutEvent) : List Byte := r.bytes (render r out)

/-- The reference rendering of R97: each event as its reference text, in UTF-8. The separators, which the reference leaves to
the caller, are arguments: what stands before and after an event, and between two events. -/
def referenceRenderer (before after : OutEvent → List Char) (between : List Char) : Renderer where
  text out := between.intercalate (out.map fun e => before e ++ e.text ++ after e)
  bytes text := text.flatMap utf8Bytes

end Sys2Proof.Machine
end

