-- ==== Sys2Proof/WellFormed.lean ====
section
/-! DEFINITION. Which instructions are well-formed: every operand byte that names a register names one of the eight
(spec 00_scope.md R9, 10_state.md R21). An ill-formed one still decodes and executes: it raises InvalidRegister. -/

namespace Sys2Proof

/-- The operand bytes of an instruction that name a register, first operand first (30_encoding.md R53). -/
def Instr.registerOperands : Instr → List Byte
  | .hlt | .ret | .iret => []
  | .push r | .pop r | .prn r | .pra r | .call r | .jmp r | .ldi r _ => [r]
  | .st a b | .add a b | .sub a b | .mul a b | .div a b => [a, b]

/-- Every register operand is 0..7: "every register index used by a decoded instruction is in [0,8)" (R21). -/
def Instr.wellFormed (i : Instr) : Bool :=
  i.registerOperands.all fun o => decide (o.toNat < 8)

end Sys2Proof
end

