-- ==== Sys2Proof/Safety.lean ====
section
/-! DEFINITION. The terms claims are stated in: the invariant of the machine, what a step keeps, and which error, if any, a
cycle meets first, written from spec 60_exceptions.md R104 apart from the meanings. A cycle is safe when it meets none. -/

namespace Sys2Proof.Machine

/-- The operand byte that names a register (30_encoding.md R63). -/
def regByte (r : RegIdx) : Byte := BitVec.ofNat 8 r.val

/-- The invariant of 10_state.md R29 in this model: memory is in its canonical form, which keeps every listed address
below 256, and pc is at most 256. That every value is 0..255 and every register index 0..7 is in the types. -/
def State.Inv (s : State) : Prop := Memory.wf s.mem = true ∧ s.pc ≤ memSize

/-- Every register but those listed is as it was. -/
def KeepsRegs (s t : State) (but : List RegIdx) : Prop :=
  ∀ r, r ∉ but → t.getReg r = s.getReg r

/-- Every byte of memory but those at the listed addresses reads as it did. -/
def KeepsMem (s t : State) (but : List Nat) : Prop :=
  ∀ a, a ∉ but → Memory.read t.mem a = Memory.read s.mem a

/-- The value of the stack pointer as a number. -/
def State.spNat (s : State) : Nat := (s.getReg 7).toNat

/-- The error of a push, if any: the cell SP − 1 lies below or above the stack region (42_stack_subroutine.md R84). -/
def pushError (s : State) : Option CoreError :=
  if s.spNat ≤ s.config.stackBottom.val then some .stackOverflow
  else if 0xF4 < s.spNat then some .stackUnderflow
  else none

/-- The error of a pop, if any: the cell SP lies above or below the stack region (R84). -/
def popError (s : State) : Option CoreError :=
  if 0xF3 < s.spNat then some .stackUnderflow
  else if s.spNat < s.config.stackBottom.val then some .stackOverflow
  else none

/-- Whether the first, and whether the second, operand byte of an instruction names a register (30_encoding.md R53). -/
def registerPositions : Mnemonic → Bool × Bool
  | .hlt | .ret | .iret => (false, false)
  | .push | .pop | .prn | .pra | .call | .jmp | .ldi => (true, false)
  | .st | .add | .sub | .mul | .div => (true, true)

/-- The check of a handler itself, its register operands being valid; `divisor` is what DIV divides by (R104, 5). -/
def handlerError (s : State) (divisor : Byte) : Mnemonic → Option CoreError
  | .div => if divisor = 0#8 then some .divisionByZero else none
  | .push => pushError s
  | .call => if 256 ≤ s.pc + 2 then some (.memoryAccessViolation (s.pc + 2)) else pushError s
  | .pop | .ret => popError s
  | .hlt | .iret | .prn | .pra | .jmp | .ldi | .st | .add | .sub | .mul => none

/-- The first error a cycle from this state meets, in the order of R104; none when the cycle is safe. -/
def firstError (s : State) : Option CoreError :=
  let op := Memory.read s.mem s.pc
  let o1 := Memory.read s.mem (s.pc + 1)
  let o2 := Memory.read s.mem (s.pc + 2)
  if 256 ≤ s.pc then some (.memoryAccessViolation s.pc)
  else if 256 ≤ s.pc + op.toNat / 64 then some (.memoryAccessViolation 256)
  else
    match mnemonicOf op with
    | none => some (.unknownOpcode op s.pc)
    | some m =>
      if m = .iret ∧ s.config.iretMode = .omitted then some (.unknownOpcode op s.pc)
      else if (registerPositions m).1 = true ∧ 8 ≤ o1.toNat then some (.invalidRegister o1 s.pc)
      else if (registerPositions m).2 = true ∧ 8 ≤ o2.toNat then some (.invalidRegister o2 s.pc)
      else handlerError s (s.getReg (Fin.ofNat 8 o2.toNat)) m

end Sys2Proof.Machine
end

