-- ==== Sys2Proof/Certificates/Slice0/Obligations.lean ====
section
/-! DEFINITION. The statements for the provers. `regByte r` is the operand byte that names register r, so a statement over
all r is a statement over every valid register operand; InvalidRegisterOperandFaults is about every other byte.
Where a statement rests on a choice of the spec's or of the model's its docstring names the log entry. -/

open Sys2Proof Sys2Proof.Machine

/-! ### Reset and the invariant -/

/-- R119, R20: memory zero, R0 to R6 zero, SP 0xF4, pc 0, running, nothing emitted. -/
def Obligations.ResetIsTheConstructionState : Prop :=
  (∀ a, a < 256 → Memory.read State.reset.mem a = 0#8) ∧
  (∀ r : RegIdx, r ≠ 7 → State.reset.getReg r = 0#8) ∧
  State.reset.getReg 7 = 0xF4#8 ∧
  State.reset.pc = 0 ∧ State.reset.status = .running ∧ State.reset.out = []

/-- The state at construction meets the invariant every step keeps (R29; the canonical form of memory is the model's, log
entry 17). -/
def Obligations.ConstructionMeetsInvariant : Prop :=
  ∀ c : Config, (State.construct c).Inv

/-- Every step from a state that meets the invariant gives one that does: memory canonical, pc at most 256 (R23, R29; pc
without wrap is the spec's decision D6, log entry 8). -/
def Obligations.StepKeepsInvariant : Prop :=
  ∀ s t : State, s.Inv → step s = .next t → t.Inv

/-! ### Encoding -/

/-- R48, R53, R57 (opcode values PRESUMED, log entry 1): no operand bit is dropped, whatever follows. -/
def Obligations.DecodeOfEncode : Prop :=
  ∀ (i : Instr) (rest : List Byte), decode (encode i ++ rest) = .ok (i, rest)

/-- The other direction: an instruction has one encoding, so what decodes is what was encoded. -/
def Obligations.EncodeOfDecode : Prop :=
  ∀ (bytes rest : List Byte) (i : Instr), decode bytes = .ok (i, rest) → encode i ++ rest = bytes

/-- Words written out from the layout and the table of R57 (PRESUMED values, log entry 1), one of each family. -/
def Obligations.SampleWordsDecode : Prop :=
  decode [0b10000010#8, 0b00000000#8, 0b00001000#8] = .ok (.ldi 0#8 8#8, []) ∧
  decode [0b10100011#8, 0b00000101#8, 0b00000110#8] = .ok (.div 5#8 6#8, []) ∧
  decode [0b01010000#8, 0b00000001#8, 0b11111111#8] = .ok (.call 1#8, [0xFF#8]) ∧
  decode [0b10000100#8, 0b00000010#8, 0b00000011#8] = .ok (.st 2#8 3#8, []) ∧
  decode [0b00010001#8] = .ok (.ret, []) ∧
  decode [0b00000001#8] = .ok (.hlt, []) ∧
  decode [0b00000000#8] = .error (.unknownOpcode 0#8) ∧
  decode [0b11000000#8, 0#8, 0#8] = .error (.missingOperand 0b11000000#8 3)

/-- R50 with the fields of R49: bits 7-6, 5, 4 and 3-0, for every byte. -/
def Obligations.DecoderReadsTheBitFields : Prop :=
  ∀ op : Byte,
    (decodeShape op).operandCount = op.toNat / 64 ∧
    (decodeShape op).isAlu = (op.toNat / 32 % 2 == 1) ∧
    (decodeShape op).setsPc = (op.toNat / 16 % 2 == 1) ∧
    (decodeShape op).id.toNat = op.toNat % 16

/-- R60: the constraints the document fixes hold of the bytes of R57 (PRESUMED, log entry 1). -/
def Obligations.OpcodesMeetTheStructuralConstraints : Prop :=
  (∀ m : Mnemonic, (decodeShape m.opcode).isAlu = true ↔ m ∈ [.add, .sub, .mul, .div]) ∧
  (∀ m : Mnemonic, (decodeShape m.opcode).setsPc = true ↔ m ∈ [.call, .ret, .jmp, .iret]) ∧
  (∀ m : Mnemonic, (decodeShape m.opcode).operandCount = 0 ↔ m ∈ [.hlt, .ret, .iret]) ∧
  (∀ m : Mnemonic, (decodeShape m.opcode).operandCount = 1 ↔ m ∈ [.push, .pop, .prn, .pra, .call, .jmp]) ∧
  (∀ m : Mnemonic, (decodeShape m.opcode).operandCount = 2 ↔ m ∈ [.ldi, .st, .add, .sub, .mul, .div]) ∧
  (∀ m m' : Mnemonic, m.opcode = m'.opcode → m = m')

/-! ### The cycle -/

/-- When the bytes of memory from pc on begin with an instruction, a step of the running core is exec of it: nothing is
added around exec, which itself moves pc past the instruction (R68, R72). -/
def Obligations.StepRunsTheDecodedInstruction : Prop :=
  ∀ (s : State) (i : Instr) (rest : List Byte),
    s.status = .running → decode (bytesFrom s.mem s.pc) = .ok (i, rest) → step s = exec i s

/-- R67: a halted state has no cycle. That the model says so by a fault is its own choice (log entry 4). -/
def Obligations.HaltedStateHasNoCycle : Prop :=
  ∀ (s : State) (reason : HaltReason), s.status = .halted reason → step s = .fault (.noCycle reason)

/-- R75: the cycle of a running core always answers a next state, which runs on, has executed HLT or carries one named
error; an illegal byte, IRET's where the opcode is omitted included, ends the run in this very cycle. -/
def Obligations.CycleIsTotal : Prop :=
  ∀ s : State, s.status = .running →
    ∃ t, step s = .next t ∧
      (t.status = .running ∨ t.status = .halted .normal ∨ ∃ e, t.status = .halted (.fault e)) ∧
      (mnemonicOf (Memory.read s.mem s.pc) = none ∨
          (mnemonicOf (Memory.read s.mem s.pc) = some .iret ∧ s.config.iretMode = .omitted) →
        ∃ e, t.status = .halted (.fault e))

/-- R107: a cycle that ends in an error changes the run status and nothing else. For errors other than DivisionByZero and
UnknownOpcode this is the spec's own generalisation (decision D8, log entry 7). -/
def Obligations.ErrorsArePrecise : Prop :=
  ∀ (s t : State) (e : CoreError),
    step s = .next t → t.status = .halted (.fault e) → t = { s with status := .halted (.fault e) }

/-- R69: the opcode fetch from an address outside memory (the spec's decision D6, log entry 8). -/
def Obligations.OpcodeFetchOutsideMemoryFaults : Prop :=
  ∀ s : State, s.status = .running → 256 ≤ s.pc →
    step s = .next { s with status := .halted (.fault (.memoryAccessViolation s.pc)) }

/-- R70: the operand bytes are read in increasing order of address whether or not the opcode is defined; the first one
outside memory is the violation; within memory they are the current bytes of the cells, and the instruction fetched is the
one the dispatch makes of exactly these bytes. -/
def Obligations.OperandFetchIsBoundsChecked : Prop :=
  ∀ s : State, s.status = .running → s.pc < 256 →
    let count := (Memory.read s.mem s.pc).toNat / 64
    (∀ i, 1 ≤ i → i ≤ count → 256 ≤ s.pc + i → (∀ j, 1 ≤ j → j < i → s.pc + j < 256) →
      step s = .next { s with status := .halted (.fault (.memoryAccessViolation (s.pc + i))) }) ∧
    (s.pc + count < 256 →
      let operands := (List.range count).map fun k => Memory.read s.mem (s.pc + 1 + k)
      readBytes s (s.pc + 1) count = .ok operands ∧
      ∀ i, fetch s = .ok i ↔ dispatch (Memory.read s.mem s.pc) operands = some i)

/-- R58, R71: a byte outside the table, its operands in range, is UnknownOpcode with the byte and the address (dispatch on
the whole byte is decision D2, the values PRESUMED, log entry 1). -/
def Obligations.IllegalByteIsUnknownOpcode : Prop :=
  ∀ s : State, s.status = .running → s.pc < 256 →
    (Memory.read s.mem s.pc).toNat ∉
      [0x01, 0x11, 0x13, 0x45, 0x46, 0x47, 0x48, 0x50, 0x54, 0x82, 0x84, 0xA0, 0xA1, 0xA2, 0xA3] →
    s.pc + (Memory.read s.mem s.pc).toNat / 64 < 256 →
    step s = .next { s with status := .halted (.fault (.unknownOpcode (Memory.read s.mem s.pc) s.pc)) }

/-- R104 as one function of the state: a cycle of the running core takes an error exactly when `firstError` names it, so
of several the first in that order is the one reported (decision D8, log entry 7). -/
def Obligations.ErrorPriority : Prop :=
  ∀ s : State, s.status = .running → ∀ e : CoreError, step s = .next (s.raise e) ↔ firstError s = some e

/-- R53, R103: whatever the instruction, the first register operand that is 8 or more is InvalidRegister, before any check
of the handler (the spec's decision D5, log entry 6). -/
def Obligations.InvalidRegisterOperandFaults : Prop :=
  ∀ (i : Instr) (o : Byte) (s : State),
    i.registerOperands.find? (fun b => decide (8 ≤ b.toNat)) = some o →
    exec i s = .next { s with status := .halted (.fault (.invalidRegister o s.pc)) }

/-- R72: where an instruction leaves pc, by how it ends: past itself when it runs on and its sets_pc bit is clear, at the
HLT or past it as HLT_ADVANCES_PC says (decision D7, log entry 2), at itself after an error (decision D8). -/
def Obligations.PcAfterACycle : Prop :=
  ∀ (s t : State) (i : Instr), fetch s = .ok i → step s = .next t →
    (t.status = .running → (decodeShape i.mnemonic.opcode).setsPc = false → t.pc = s.pc + (encode i).length) ∧
    (t.status = .halted .normal → t.pc = if s.config.hltAdvancesPc then s.pc + 1 else s.pc) ∧
    (∀ e, t.status = .halted (.fault e) → t.pc = s.pc)

/-- R92: only CALL, RET and JMP transfer control, each always when it completes, to a register's value or the byte on the
stack, which is an address of memory; the link of a CALL is the byte it leaves on the stack, not a register. For CALL R7
the target is the decremented SP, which is no word of R92 but the spec's decision D11 (log entry 9). -/
def Obligations.ControlTransfers : Prop :=
  ∀ (i : Instr) (s t : State), s.status = .running → exec i s = .next t → t.status = .running →
    (i.mnemonic ∉ [.call, .ret, .jmp] → t.pc = s.pc + (encode i).length) ∧
    (∀ r : RegIdx, i = .call (regByte r) ∨ i = .jmp (regByte r) → t.pc = (t.getReg r).toNat) ∧
    (i = .ret → t.pc = (Memory.read s.mem (s.getReg 7).toNat).toNat) ∧
    (∀ r : RegIdx, i = .call (regByte r) →
      (Memory.read t.mem (t.getReg 7).toNat).toNat = s.pc + 2 ∧ KeepsRegs s t [7]) ∧
    (i.mnemonic ∈ [.call, .ret, .jmp] → t.pc < 256)

/-! ### ALU -/

/-- R83 (with the values of R79 to R82): on any two registers, the same one included, ADD, SUB, MUL and DIV complete with
the result modulo 256 in the first register and change nothing else but pc; DIV by zero is the one error. -/
def Obligations.AluResults : Prop :=
  ∀ (a b : RegIdx) (s : State), s.status = .running →
    let x := (s.getReg a).toNat
    let y := (s.getReg b).toNat
    let writes (t : State) (v : Nat) : Prop :=
      (t.getReg a).toNat = v ∧ KeepsRegs s t [a] ∧ t = { s with regs := t.regs, pc := s.pc + 3 }
    (∃ t, exec (.add (regByte a) (regByte b)) s = .next t ∧ writes t ((x + y) % 256)) ∧
    (∃ t, exec (.sub (regByte a) (regByte b)) s = .next t ∧ writes t ((x + 256 - y) % 256)) ∧
    (∃ t, exec (.mul (regByte a) (regByte b)) s = .next t ∧ writes t (x * y % 256)) ∧
    (y ≠ 0 → ∃ t, exec (.div (regByte a) (regByte b)) s = .next t ∧ writes t (x / y)) ∧
    (y = 0 → exec (.div (regByte a) (regByte b)) s = .next { s with status := .halted (.fault .divisionByZero) })

/-! ### Immediate load, output, store -/

/-- R93: the immediate byte unchanged into any register, SP included. -/
def Obligations.LdiLoadsTheImmediate : Prop :=
  ∀ (r : RegIdx) (imm : Byte) (s : State), s.status = .running →
    ∃ t, exec (.ldi (regByte r) imm) s = .next t ∧
      t.getReg r = imm ∧ KeepsRegs s t [r] ∧ t = { s with regs := t.regs, pc := s.pc + 3 }

/-- R94, R95: PRN and PRA append one event with the register's value; registers and memory do not change. -/
def Obligations.OutputInstructionsEmit : Prop :=
  ∀ (r : RegIdx) (s : State), s.status = .running →
    exec (.prn (regByte r)) s = .next { s with out := s.out ++ [.dec (s.getReg r)], pc := s.pc + 2 } ∧
    exec (.pra (regByte r)) s = .next { s with out := s.out ++ [.chr (s.getReg r)], pc := s.pc + 2 }

/-- R96: ST writes the cell whose address the first register holds, and no other cell and no register. -/
def Obligations.StStoresThroughARegister : Prop :=
  ∀ (a b : RegIdx) (s : State), s.status = .running →
    ∃ t, exec (.st (regByte a) (regByte b)) s = .next t ∧
      Memory.read t.mem (s.getReg a).toNat = s.getReg b ∧ KeepsMem s t [(s.getReg a).toNat] ∧
      t = { s with mem := t.mem, pc := s.pc + 3 }

/-- R47: a byte ST writes into the cell where the next instruction begins, whatever byte it is, is the opcode byte of the
next cycle: the instruction fetched is the one dispatch makes of it and the operand bytes after it, which the store left
as they were; a byte of no instruction ends the run in that cycle, and HLT written there halts the core. -/
def Obligations.StoreIntoTheNextInstructionIsFetched : Prop :=
  ∀ (a b : RegIdx) (s : State), s.status = .running → fetch s = .ok (.st (regByte a) (regByte b)) →
    (s.getReg a).toNat = s.pc + 3 →
    let op := s.getReg b
    let count := op.toNat / 64
    ∃ t u, step s = .next t ∧ t.status = .running ∧ t.pc = s.pc + 3 ∧
      Memory.read t.mem t.pc = op ∧ KeepsMem s t [t.pc] ∧
      (∀ i, fetch t = .ok i → i.mnemonic.opcode = op) ∧
      (t.pc + count < 256 → ∀ i,
        fetch t = .ok i ↔ dispatch op ((List.range count).map fun k => Memory.read s.mem (t.pc + 1 + k)) = some i) ∧
      step t = .next u ∧
      (mnemonicOf op = none → ∃ e, u.status = .halted (.fault e)) ∧
      (op = Mnemonic.hlt.opcode → u.status = .halted .normal)

/-! ### Stack and subroutine -/

/-- R85: PUSH of any register while SP − 1 is in the stack region: SP is decremented, the cell it then points at holds the
register (for R7 the decremented SP, decision D11, log entry 9). -/
def Obligations.PushStoresBelowTheStackPointer : Prop :=
  ∀ (r : RegIdx) (s : State), s.status = .running →
    s.config.stackBottom.val < (s.getReg 7).toNat → (s.getReg 7).toNat ≤ 0xF4 →
    ∃ t, exec (.push (regByte r)) s = .next t ∧
      (t.getReg 7).toNat + 1 = (s.getReg 7).toNat ∧ KeepsRegs s t [7] ∧
      Memory.read t.mem ((s.getReg 7).toNat - 1) = (if r = 7 then t.getReg 7 else s.getReg r) ∧
      KeepsMem s t [(s.getReg 7).toNat - 1] ∧
      t = { s with mem := t.mem, regs := t.regs, pc := s.pc + 2 }

/-- R86: POP into any register while SP is in the stack region: the byte SP points at, then SP is incremented (for R7 the
byte itself incremented modulo 256, decision D11, log entry 9); memory does not change. -/
def Obligations.PopLoadsFromTheStackPointer : Prop :=
  ∀ (r : RegIdx) (s : State), s.status = .running →
    s.config.stackBottom.val ≤ (s.getReg 7).toNat → (s.getReg 7).toNat ≤ 0xF3 →
    let v := Memory.read s.mem (s.getReg 7).toNat
    ∃ t, exec (.pop (regByte r)) s = .next t ∧
      (r ≠ 7 → t.getReg r = v ∧ (t.getReg 7).toNat = (s.getReg 7).toNat + 1) ∧
      (r = 7 → (t.getReg 7).toNat = (v.toNat + 1) % 256) ∧
      KeepsRegs s t [r, 7] ∧
      t = { s with regs := t.regs, pc := s.pc + 2 }

/-- R87: CALL pushes the address after itself and jumps to the register's value (for R7 the decremented SP, decision D11,
log entry 9). -/
def Obligations.CallPushesTheReturnAddress : Prop :=
  ∀ (r : RegIdx) (s : State), s.status = .running → s.pc + 2 < 256 →
    s.config.stackBottom.val < (s.getReg 7).toNat → (s.getReg 7).toNat ≤ 0xF4 →
    ∃ t, exec (.call (regByte r)) s = .next t ∧
      (t.getReg 7).toNat + 1 = (s.getReg 7).toNat ∧ KeepsRegs s t [7] ∧
      (Memory.read t.mem ((s.getReg 7).toNat - 1)).toNat = s.pc + 2 ∧
      KeepsMem s t [(s.getReg 7).toNat - 1] ∧
      t.pc = (if r = 7 then (s.getReg 7).toNat - 1 else (s.getReg r).toNat) ∧
      t = { s with mem := t.mem, regs := t.regs, pc := t.pc }

/-- R88: RET pops the byte on top of the stack into pc; memory does not change. -/
def Obligations.RetPopsThePc : Prop :=
  ∀ s : State, s.status = .running →
    s.config.stackBottom.val ≤ (s.getReg 7).toNat → (s.getReg 7).toNat ≤ 0xF3 →
    ∃ t, exec .ret s = .next t ∧
      (t.getReg 7).toNat = (s.getReg 7).toNat + 1 ∧ KeepsRegs s t [7] ∧
      t = { s with regs := t.regs, pc := (Memory.read s.mem (s.getReg 7).toNat).toNat }

/-- R89: JMP sets pc to the register's value and changes nothing else. -/
def Obligations.JmpSetsThePc : Prop :=
  ∀ (r : RegIdx) (s : State), exec (.jmp (regByte r)) s = .next { s with pc := (s.getReg r).toNat }

/-- R84: on which side of the stack region each of PUSH, CALL, POP and RET errs (the sides are decision D10, log entry 11;
STACK_BOTTOM is the parameter, log entry 2). -/
def Obligations.StackBoundErrors : Prop :=
  ∀ (r : RegIdx) (s : State),
    let p := (s.getReg 7).toNat
    let errs (i : Instr) (e : CoreError) : Prop := exec i s = .next { s with status := .halted (.fault e) }
    (p ≤ s.config.stackBottom.val →
      errs (.push (regByte r)) .stackOverflow ∧ (s.pc + 2 < 256 → errs (.call (regByte r)) .stackOverflow)) ∧
    (0xF4 < p →
      errs (.push (regByte r)) .stackUnderflow ∧ (s.pc + 2 < 256 → errs (.call (regByte r)) .stackUnderflow)) ∧
    (0xF3 < p → errs (.pop (regByte r)) .stackUnderflow ∧ errs .ret .stackUnderflow) ∧
    (p < s.config.stackBottom.val → errs (.pop (regByte r)) .stackOverflow ∧ errs .ret .stackOverflow)

/-- R87: a CALL whose return address is outside memory errs, whatever SP is (the spec's decision D12, log entry 10). -/
def Obligations.CallAtTheEndOfMemoryFaults : Prop :=
  ∀ (r : RegIdx) (s : State), 256 ≤ s.pc + 2 →
    exec (.call (regByte r)) s = .next { s with status := .halted (.fault (.memoryAccessViolation (s.pc + 2))) }

/-- R90: PUSH Ri then POP Rj, neither of them R7, moves the value, restores SP, and leaves the value in the cell below it. -/
def Obligations.PushPopRoundTrip : Prop :=
  ∀ (i j : RegIdx) (s : State), s.status = .running → i ≠ 7 → j ≠ 7 →
    s.config.stackBottom.val < (s.getReg 7).toNat → (s.getReg 7).toNat ≤ 0xF4 →
    ∃ t u, exec (.push (regByte i)) s = .next t ∧ exec (.pop (regByte j)) t = .next u ∧
      u.getReg j = s.getReg i ∧ u.getReg 7 = s.getReg 7 ∧
      Memory.read u.mem ((s.getReg 7).toNat - 1) = s.getReg i ∧
      KeepsRegs s u [j] ∧ KeepsMem s u [(s.getReg 7).toNat - 1]

/-- R91: whatever the subroutine did, a RET of a running core with SP and the byte at SP as the CALL left them returns to
the address after the CALL and restores SP. -/
def Obligations.CallThenRetResumes : Prop :=
  ∀ (r : RegIdx) (s t u : State), s.status = .running →
    exec (.call (regByte r)) s = .next t → t.status = .running →
    u.config = s.config → u.getReg 7 = t.getReg 7 →
    Memory.read u.mem (t.getReg 7).toNat = Memory.read t.mem (t.getReg 7).toNat →
    ∃ v, exec .ret u = .next v ∧ v.pc = s.pc + 2 ∧ v.getReg 7 = s.getReg 7 ∧ v.status = u.status

/-! ### System instructions -/

/-- R99 and R72: HLT halts normally; pc stays, or moves past it where HLT_ADVANCES_PC is true (log entry 2). -/
def Obligations.HltHaltsNormally : Prop :=
  ∀ s : State, exec .hlt s =
    .next { s with status := .halted .normal, pc := if s.config.hltAdvancesPc then s.pc + 1 else s.pc }

/-- R100: IRET in both values of IRET_MODE (log entries 2 and 3); the byte is PRESUMED (log entry 1). -/
def Obligations.IretByMode : Prop :=
  ∀ s : State,
    (s.config.iretMode = .noop → exec .iret s = .next { s with pc := s.pc + 1 }) ∧
    (s.config.iretMode = .omitted →
      exec .iret s = .next { s with status := .halted (.fault (.unknownOpcode 0x13#8 s.pc)) })

/-! ### The whole machine -/

/-- R127: a step of the core ends its run only by HLT or an error, and a JMP to itself is a state every step keeps, which
only the caller's budget ends. -/
def Obligations.OnlyHltOrAnErrorEndsARun : Prop :=
  (∀ s t : State, step s = .next t →
    t.status = .running ∨ (t.status = .halted .normal ∧ fetch s = .ok .hlt) ∨ ∃ e, t.status = .halted (.fault e)) ∧
  (∀ (r : RegIdx) (s : State), s.status = .running → fetch s = .ok (.jmp (regByte r)) → (s.getReg r).toNat = s.pc →
    step s = .next s ∧ ∀ budget : Nat, run (some budget) noCancel budget s = some { s with status := .halted .stopped })

/-- R24: the channel is empty at construction, and a step leaves it or appends the one event of a PRN or a PRA: a PRN's
means the decimal text of the byte, a PRA's the one character with that code point. -/
def Obligations.OutputIsOnlyAppended : Prop :=
  (∀ c : Config, (State.construct c).out = []) ∧
  (∀ v : Byte, (OutEvent.dec v).text = Nat.toDigits 10 v.toNat ∧ (OutEvent.chr v).text.map Char.toNat = [v.toNat]) ∧
  ∀ s t : State, step s = .next t →
    t.out = s.out ∨
    (∃ r : RegIdx, fetch s = .ok (.prn (regByte r)) ∧ t.out = s.out ++ [.dec (s.getReg r)]) ∨
    (∃ r : RegIdx, fetch s = .ok (.pra (regByte r)) ∧ t.out = s.out ++ [.chr (s.getReg r)])

/-- R33, R38: a cell changes only by ST, at the address its register holds, or by PUSH or CALL, at SP − 1. -/
def Obligations.MemoryIsWrittenOnlyByStPushCall : Prop :=
  ∀ (s t : State) (x : Nat), step s = .next t → Memory.read t.mem x ≠ Memory.read s.mem x →
    (∃ a b : RegIdx, fetch s = .ok (.st (regByte a) (regByte b)) ∧ x = (s.getReg a).toNat) ∨
    (∃ r : RegIdx, (fetch s = .ok (.push (regByte r)) ∨ fetch s = .ok (.call (regByte r))) ∧
      x + 1 = (s.getReg 7).toNat)

/-- R21, R33: a register changes only by an instruction that names it as its destination, and R7 also by PUSH, POP, CALL
and RET. -/
def Obligations.RegistersAreWrittenOnlyByTheirInstructions : Prop :=
  ∀ (s t : State) (q : RegIdx), step s = .next t → t.getReg q ≠ s.getReg q →
    ∃ i, fetch s = .ok i ∧
      ((i.mnemonic ∈ [.ldi, .pop, .add, .sub, .mul, .div] ∧ i.operands.head? = some (regByte q)) ∨
        (q = 7 ∧ i.mnemonic ∈ [.push, .pop, .call, .ret]))

/-- The parameters of the core are at the reference values of R7 after reset, and no step changes them (that they are a
field of State is the model's choice, log entry 2). -/
def Obligations.StepKeepsTheParameters : Prop :=
  State.reset.config.stackBottom.val = 0 ∧ State.reset.config.iretMode = .omitted ∧
  State.reset.config.hltAdvancesPc = false ∧
  ∀ s t : State, step s = .next t → t.config = s.config

/-! ### Memory -/

/-- R40, R44: a write changes its cell and no other, on any memory. -/
def Obligations.ReadAfterWrite : Prop :=
  ∀ (m : Memory) (a x : Nat) (v : Byte),
    Memory.read (Memory.write m a v) x = if x = a then v else Memory.read m x

/-- A write to an address of memory keeps the canonical form (the form is the model's, log entry 17). -/
def Obligations.WriteKeepsTheCanonicalForm : Prop :=
  ∀ (m : Memory) (a : Nat) (v : Byte), Memory.wf m = true → a < 256 → Memory.wf (Memory.write m a v) = true

/-- Two memories in canonical form that read alike everywhere are equal data (log entry 17). -/
def Obligations.EqualMemoriesAreEqualData : Prop :=
  ∀ m m' : Memory, Memory.wf m = true → Memory.wf m' = true → (∀ a, Memory.read m a = Memory.read m' a) → m = m'

/-! ### The host -/

/-- R121: an image of at most 256 bytes goes to the cells from 0 on and changes nothing else; a longer one is refused (the
spec's decision D17, log entry 14). That this holds on every state, and not only before the first cycle, is the model's
choice (log entry 26). -/
def Obligations.LoadPlacesTheImage : Prop :=
  ∀ (image : List Byte) (s : State),
    (image.length ≤ 256 → ∃ t, load image s = .next t ∧
      (∀ i (h : i < image.length), Memory.read t.mem i = image[i]) ∧
      (∀ a, image.length ≤ a → Memory.read t.mem a = Memory.read s.mem a) ∧
      t = { s with mem := t.mem }) ∧
    (256 < image.length → load image s = .refused (.imageTooLong image.length))

/-- R121: the empty image: the first cycle from reset meets zeroed memory. -/
def Obligations.EmptyImageIsUnknownOpcode : Prop :=
  ∃ s, load [] State.reset = .next s ∧
    step s = .next { State.reset with status := .halted (.fault (.unknownOpcode 0#8 0)) }

/-- R64: the eight binary digits of a byte, most significant first, are that byte's line, with any white space around them,
without a comment and with any comment after them (digit order from general knowledge in the spec, G5; white space and
line ends, log entry 14). -/
def Obligations.BinaryLineIsItsByte : Prop :=
  ∀ (b : Byte) (left right comment : List Char),
    left.all Char.isWhitespace = true → right.all Char.isWhitespace = true →
    let digits := [7, 6, 5, 4, 3, 2, 1, 0].map fun k => if b.getLsbD k then '1' else '0'
    parseLine (left ++ digits ++ right) = .byte b ∧
    parseLine (left ++ digits ++ right ++ '#' :: comment) = .byte b

/-- R76: a run with a budget ends, in a halted state, after no more cycles than the budget, whatever the cancel signal
(the spec's decision D16; the form of the run loop is the model's, log entry 13). -/
def Obligations.BudgetedRunEnds : Prop :=
  ∀ (budget : Nat) (cancel : Nat → Bool) (s : State),
    ∃ t reason, run (some budget) cancel budget s = some t ∧ t.status = .halted reason

/-- R77: a run stopped by its budget, resumed and run with another budget, is the run with the sum of the budgets, as if it
had not been stopped (decision D16, log entry 13). -/
def Obligations.StopThenResumeIsOneRun : Prop :=
  ∀ (b1 b2 : Nat) (s s1 s2 u : State), s.status = .running →
    run (some b1) noCancel b1 s = some s1 → s1.status = .halted .stopped →
    resume s1 = .next s2 → run (some b2) noCancel b2 s2 = some u →
    run (some (b1 + b2)) noCancel (b1 + b2) s = some u

/-- R77: from every status but Halted(Stopped) there is no resumption. -/
def Obligations.OnlyAStoppedCoreResumes : Prop :=
  ∀ s : State, s.status ≠ .halted .stopped → resume s = .refused (.notStopped s.status)

/-- R97: the reference text of a PRN event is the decimal numeral of the byte, without leading zero. -/
def Obligations.DecimalTextOfAByte : Prop :=
  ∀ v : Byte,
    (OutEvent.dec v).text.foldl (fun n c => 10 * n + (c.toNat - 48)) 0 = v.toNat ∧
    (OutEvent.dec v).text.all Char.isDigit = true ∧
    ((OutEvent.dec v).text.head? = some '0' → v = 0#8 ∧ (OutEvent.dec v).text = ['0'])

/-- R64: a program file is a UTF-8 stream: its bytes are read as a text exactly when they are that text's UTF-8 bytes, and
loading them is then loading the text; any other bytes are refused (the refusal and its form are the model's, log entry
27). -/
def Obligations.ProgramFileIsReadAsUtf8 : Prop :=
  (∀ (file : List Byte) (text : List Char), textOfBytes file = some text ↔ text.flatMap utf8Bytes = file) ∧
  (∀ (text : List Char) (s : State), loadFile (text.flatMap utf8Bytes) s = loadText text s) ∧
  (∀ (file : List Byte) (s : State), (∀ text : List Char, text.flatMap utf8Bytes ≠ file) →
    loadFile file s = .refused .notUtf8)
end

