-- ==== Sys2Proof/Laws/Memory.lean ====
section
/-! SUPPORT. The laws of memory: a read after an insertion or a removal, and that every memory operation keeps the
canonical form. -/

namespace Sys2Proof.Machine

/-- The cells other than `a`, as `Memory.write` keeps them. -/
theorem Memory.read_filter (m : Memory) (a x : Nat) :
    Memory.read (m.filter fun c => c.1 != a) x = if x = a then unwrittenByte else Memory.read m x := by
  induction m with
  | nil => simp [Memory.read]
  | cons c rest ih =>
    obtain ⟨b, w⟩ := c
    by_cases hb : b = a
    · subst hb
      simp only [bne_self_eq_false, Bool.false_eq_true, not_false_eq_true, List.filter_cons_of_neg, ih, Memory.read]
      split_ifs with h1 h2 <;> simp_all
    · simp only [ne_eq, hb, not_false_eq_true, bne_iff_ne, List.filter_cons_of_pos, Memory.read, ih]
      split_ifs with h1 h2 <;> simp_all

/-- Inserting a cell that is not there adds it and changes no other. -/
theorem Memory.read_insert (m : Memory) (a x : Nat) (v : Byte) (h : ∀ c ∈ m, c.1 ≠ a) :
    Memory.read (Memory.insert a v m) x = if x = a then v else Memory.read m x := by
  induction m with
  | nil => simp [Memory.insert, Memory.read, eq_comm]
  | cons c rest ih =>
    obtain ⟨b, w⟩ := c
    have hb : b ≠ a := h (b, w) (by simp)
    have ih := ih fun c hc => h c (List.mem_cons_of_mem _ hc)
    simp only [Memory.insert]
    by_cases h1 : a < b
    · rw [if_pos h1]
      simp only [Memory.read, eq_comm (a := a)]
    · rw [if_neg h1]
      have := hb.symm
      simp only [Memory.read, ih]
      split_ifs <;> simp_all

/-- The canonical form from a higher address is one from a lower. -/
theorem Memory.wfFrom_mono {lo hi : Nat} {m : Memory} (hle : lo ≤ hi) (h : Memory.wfFrom hi m = true) :
    Memory.wfFrom lo m = true := by
  cases m with
  | nil => rfl
  | cons c rest =>
    obtain ⟨b, w⟩ := c
    simp only [Memory.wfFrom, Bool.and_eq_true, decide_eq_true_eq] at h ⊢
    exact ⟨⟨⟨by omega, h.1.1.2⟩, h.1.2⟩, h.2⟩

/-- Removing cells keeps the canonical form. -/
theorem Memory.wfFrom_filter {lo : Nat} {m : Memory} (p : Host.Cell → Bool) (h : Memory.wfFrom lo m = true) :
    Memory.wfFrom lo (m.filter p) = true := by
  induction m generalizing lo with
  | nil => rfl
  | cons c rest ih =>
    obtain ⟨b, w⟩ := c
    simp only [Memory.wfFrom, Bool.and_eq_true, decide_eq_true_eq] at h
    by_cases hp : p (b, w) = true
    · simp only [hp, List.filter_cons_of_pos, Memory.wfFrom, Bool.and_eq_true, decide_eq_true_eq]
      exact ⟨h.1, ih h.2⟩
    · simp only [hp, Bool.false_eq_true, not_false_eq_true, List.filter_cons_of_neg]
      exact Memory.wfFrom_mono (by omega) (ih h.2)

/-- Inserting a cell that is not there, with a value an unwritten cell does not hold, keeps the canonical form. -/
theorem Memory.wfFrom_insert {lo a : Nat} {v : Byte} {m : Memory} (h : Memory.wfFrom lo m = true) (hlo : lo ≤ a)
    (ha : a < memSize) (hv : v ≠ unwrittenByte) (hn : ∀ c ∈ m, c.1 ≠ a) :
    Memory.wfFrom lo (Memory.insert a v m) = true := by
  induction m generalizing lo with
  | nil => simp [Memory.insert, Memory.wfFrom, hlo, ha, hv]
  | cons c rest ih =>
    obtain ⟨b, w⟩ := c
    have hb : b ≠ a := hn (b, w) (by simp)
    simp only [Memory.wfFrom, Bool.and_eq_true, decide_eq_true_eq] at h
    simp only [Memory.insert]
    split_ifs with h1
    · simp only [Memory.wfFrom, Bool.and_eq_true, decide_eq_true_eq]
      exact ⟨⟨⟨hlo, ha⟩, hv⟩, ⟨⟨by omega, h.1.1.2⟩, h.1.2⟩, h.2⟩
    · simp only [Memory.wfFrom, Bool.and_eq_true, decide_eq_true_eq]
      exact ⟨h.1, ih h.2 (by omega) fun c hc => hn c (List.mem_cons_of_mem _ hc)⟩

/-- No cell of `a` is left among the others. -/
theorem Memory.not_mem_filter (m : Memory) (a : Nat) : ∀ c ∈ m.filter (fun c => c.1 != a), c.1 ≠ a := by
  intro c hc
  simpa using (List.mem_filter.mp hc).2

/-- A read of the memory an access of the core reaches answers the byte of the cell. -/
theorem memRead_of_lt {s : State} {a : Nat} (h : a < memSize) : memRead s a = .ok (Memory.read s.mem a) := by
  simp [memRead, h]

theorem memRead_of_le {s : State} {a : Nat} (h : memSize ≤ a) : memRead s a = .error (.memoryAccessViolation a) := by
  simp [memRead, Nat.not_lt.mpr h]

/-- Every byte is an address of memory (20_memory.md R42). -/
theorem byte_lt_memSize (b : Byte) : b.toNat < memSize := b.isLt

@[simp] theorem memRead_byte (s : State) (b : Byte) : memRead s b.toNat = .ok (Memory.read s.mem b.toNat) :=
  memRead_of_lt (byte_lt_memSize b)

@[simp] theorem memWrite_byte (s : State) (b v : Byte) :
    memWrite s b.toNat v = .ok { s with mem := Memory.write s.mem b.toNat v } := by
  simp [memWrite, byte_lt_memSize]

/-- All a run of reads does: it answers the bytes of the cells, or the violation at the first address outside memory. -/
theorem readBytes_eq (s : State) (a n : Nat) :
    readBytes s a n =
      if n = 0 ∨ a + n ≤ memSize then .ok ((List.range' a n).map (Memory.read s.mem))
      else .error (.memoryAccessViolation (max a memSize)) := by
  induction n generalizing a with
  | zero => simp [readBytes]
  | succ n ih =>
    by_cases ha : a < memSize
    · simp only [readBytes, memRead_of_lt ha, ih, bind, Except.bind]
      by_cases h : n = 0 ∨ a + 1 + n ≤ memSize
      · rw [if_pos h, if_pos (by omega)]
        simp [List.range'_succ]
      · rw [if_neg h, if_neg (by omega), Nat.max_eq_right (by omega), Nat.max_eq_right (by omega)]
    · have : ¬ (n + 1 = 0 ∨ a + (n + 1) ≤ memSize) := by omega
      simp only [readBytes, memRead_of_le (Nat.le_of_not_lt ha), bind, Except.bind, this, if_false]
      congr 2
      omega

end Sys2Proof.Machine
end

