-- ==== Sys2Proof/Laws/State.lean ====
section
/-! SUPPORT. One lemma per field per update of the state, and reading a register after a write. -/

namespace Sys2Proof.Machine

variable (s : State)

@[simp] theorem State.setReg_mem (r : RegIdx) (v : Byte) : (s.setReg r v).mem = s.mem := rfl
@[simp] theorem State.setReg_pc (r : RegIdx) (v : Byte) : (s.setReg r v).pc = s.pc := rfl
@[simp] theorem State.setReg_status (r : RegIdx) (v : Byte) : (s.setReg r v).status = s.status := rfl
@[simp] theorem State.setReg_out (r : RegIdx) (v : Byte) : (s.setReg r v).out = s.out := rfl
@[simp] theorem State.setReg_config (r : RegIdx) (v : Byte) : (s.setReg r v).config = s.config := rfl

@[simp] theorem State.setPc_mem (a : Nat) : (s.setPc a).mem = s.mem := rfl
@[simp] theorem State.setPc_regs (a : Nat) : (s.setPc a).regs = s.regs := rfl
@[simp] theorem State.setPc_pc (a : Nat) : (s.setPc a).pc = a := rfl
@[simp] theorem State.setPc_status (a : Nat) : (s.setPc a).status = s.status := rfl
@[simp] theorem State.setPc_out (a : Nat) : (s.setPc a).out = s.out := rfl
@[simp] theorem State.setPc_config (a : Nat) : (s.setPc a).config = s.config := rfl

@[simp] theorem State.emit_mem (ev : OutEvent) : (s.emit ev).mem = s.mem := rfl
@[simp] theorem State.emit_regs (ev : OutEvent) : (s.emit ev).regs = s.regs := rfl
@[simp] theorem State.emit_pc (ev : OutEvent) : (s.emit ev).pc = s.pc := rfl
@[simp] theorem State.emit_status (ev : OutEvent) : (s.emit ev).status = s.status := rfl
@[simp] theorem State.emit_out (ev : OutEvent) : (s.emit ev).out = s.out ++ [ev] := rfl
@[simp] theorem State.emit_config (ev : OutEvent) : (s.emit ev).config = s.config := rfl

@[simp] theorem State.halt_mem (r : HaltReason) : (s.halt r).mem = s.mem := rfl
@[simp] theorem State.halt_regs (r : HaltReason) : (s.halt r).regs = s.regs := rfl
@[simp] theorem State.halt_pc (r : HaltReason) : (s.halt r).pc = s.pc := rfl
@[simp] theorem State.halt_status (r : HaltReason) : (s.halt r).status = .halted r := rfl
@[simp] theorem State.halt_out (r : HaltReason) : (s.halt r).out = s.out := rfl
@[simp] theorem State.halt_config (r : HaltReason) : (s.halt r).config = s.config := rfl

@[simp] theorem State.raise_mem (e : CoreError) : (s.raise e).mem = s.mem := rfl
@[simp] theorem State.raise_regs (e : CoreError) : (s.raise e).regs = s.regs := rfl
@[simp] theorem State.raise_pc (e : CoreError) : (s.raise e).pc = s.pc := rfl
@[simp] theorem State.raise_status (e : CoreError) : (s.raise e).status = .halted (.fault e) := rfl
@[simp] theorem State.raise_out (e : CoreError) : (s.raise e).out = s.out := rfl
@[simp] theorem State.raise_config (e : CoreError) : (s.raise e).config = s.config := rfl

@[simp] theorem State.setPc_getReg (a : Nat) (r : RegIdx) : (s.setPc a).getReg r = s.getReg r := rfl
@[simp] theorem State.emit_getReg (ev : OutEvent) (r : RegIdx) : (s.emit ev).getReg r = s.getReg r := rfl
@[simp] theorem State.halt_getReg (x : HaltReason) (r : RegIdx) : (s.halt x).getReg r = s.getReg r := rfl
@[simp] theorem State.raise_getReg (e : CoreError) (r : RegIdx) : (s.raise e).getReg r = s.getReg r := rfl

/-- A write changes the register it names and no other. -/
theorem State.getReg_setReg (r q : RegIdx) (v : Byte) :
    (s.setReg r v).getReg q = if q = r then v else s.getReg q := by
  simp only [State.getReg, State.setReg, Fin.getElem_fin, Vector.getElem_set, Fin.ext_iff, eq_comm]

@[simp] theorem State.getReg_setReg_self (r : RegIdx) (v : Byte) : (s.setReg r v).getReg r = v := by
  simp [State.getReg_setReg]

theorem State.getReg_setReg_of_ne {r q : RegIdx} (h : q ≠ r) (v : Byte) :
    (s.setReg r v).getReg q = s.getReg q := by
  simp [State.getReg_setReg, h]

/-- Two states are raised to the same state only by the same error. -/
theorem State.raise_injective {e e' : CoreError} (h : s.raise e = s.raise e') : e = e' := by
  have := congrArg State.status h
  simpa using this

end Sys2Proof.Machine
end

