-- ==== Sys2Proof/Laws/Ops.lean ====
section
/-! SUPPORT. What each shared operation can do: resolving register operands, the stack checks, the push, the numbers, and
the Executor around a handler. -/

namespace Sys2Proof.Machine

/-! ### Register operands -/

@[simp] theorem regByte_toNat (r : RegIdx) : (regByte r).toNat = r.val := by
  have := r.isLt
  simp only [regByte, BitVec.toNat_ofNat]
  omega

@[simp] theorem reg_regByte (s : State) (r : RegIdx) : reg s (regByte r) = .ok r := by
  simp [reg]

/-- An operand byte names a register or is InvalidRegister. -/
theorem reg_cases (s : State) (o : Byte) :
    (∃ r, o = regByte r) ∨ (8 ≤ o.toNat ∧ reg s o = .error (.invalidRegister o s.pc)) := by
  by_cases h : o.toNat < 8
  · refine .inl ⟨⟨o.toNat, h⟩, BitVec.eq_of_toNat_eq (by simp)⟩
  · exact .inr ⟨by omega, by simp [reg, h]⟩

@[simp] theorem regPair_regByte (s : State) (a b : RegIdx) : regPair s (regByte a) (regByte b) = .ok (a, b) := by
  simp [regPair, bind, Except.bind]

/-- Two operand bytes both name registers, or the first that does not is InvalidRegister. -/
theorem regPair_cases (s : State) (o1 o2 : Byte) :
    (∃ a b, o1 = regByte a ∧ o2 = regByte b) ∨
    (8 ≤ o1.toNat ∧ regPair s o1 o2 = .error (.invalidRegister o1 s.pc)) ∨
    (o1.toNat < 8 ∧ 8 ≤ o2.toNat ∧ regPair s o1 o2 = .error (.invalidRegister o2 s.pc)) := by
  rcases reg_cases s o1 with ⟨a, rfl⟩ | ⟨h1, e1⟩
  · rcases reg_cases s o2 with ⟨b, rfl⟩ | ⟨h2, e2⟩
    · exact .inl ⟨a, b, rfl, rfl⟩
    · exact .inr (.inr ⟨by simp, h2, by simp [regPair, e2, bind, Except.bind]⟩)
  · exact .inr (.inl ⟨h1, by simp [regPair, e1, bind, Except.bind]⟩)

/-! ### Numbers -/

theorem trunc8_toNat (v : Int) : ((trunc8 v).toNat : Int) = v % 256 := by
  have := Int.emod_nonneg v (b := 256) (by omega)
  have := Int.emod_lt_of_pos v (b := 256) (by omega)
  simp only [trunc8, BitVec.toNat_ofNat]
  omega

/-- A byte's own value is not changed by narrowing. -/
theorem trunc8_of_lt {n : Nat} (h : n < 256) : (trunc8 n).toNat = n := by
  have := trunc8_toNat n
  omega

/-! ### The stack checks -/

theorem stackTop_eq : stackTop = 0xF3 := by decide

/-- A push check by the side of the stack region its cell lies on. -/
theorem pushCheck_eq (s : State) : pushCheck s.config (s.getReg sp) =
    match pushError s with
    | some e => .error e
    | none => .ok (s.getReg sp - 1#8) := by
  have hlt := (s.getReg sp).isLt
  simp only [pushCheck, stackTop_eq, pushError, State.spNat, show (7 : RegIdx) = sp from rfl]
  by_cases h1 : (s.getReg sp).toNat ≤ s.config.stackBottom.val
  · rw [if_pos (by omega), if_pos h1]
  · rw [if_neg (by omega), if_neg h1]
    by_cases h2 : 0xF4 < (s.getReg sp).toNat
    · rw [if_pos (by omega), if_pos h2]
    · rw [if_neg (by omega), if_neg h2]
      refine congrArg _ (BitVec.eq_of_toNat_eq ?_)
      have := trunc8_toNat ((s.getReg sp).toNat - 1)
      rw [BitVec.toNat_sub]
      simp only [BitVec.toNat_ofNat]
      omega

/-- A pop check likewise. -/
theorem popCheck_eq (s : State) : popCheck s.config (s.getReg sp) =
    match popError s with
    | some e => .error e
    | none => .ok (s.getReg sp) := by
  simp only [popCheck, stackTop_eq, popError, State.spNat, show (7 : RegIdx) = sp from rfl]
  by_cases h1 : 0xF3 < (s.getReg sp).toNat
  · rw [if_pos (by omega), if_pos h1]
  · rw [if_neg (by omega), if_neg h1]
    by_cases h2 : (s.getReg sp).toNat < s.config.stackBottom.val
    · rw [if_pos (by omega), if_pos h2]
    · rw [if_neg (by omega), if_neg h2]

theorem pushError_eq_none {s : State} :
    pushError s = none ↔ s.config.stackBottom.val < s.spNat ∧ s.spNat ≤ 0xF4 := by
  simp only [pushError]
  split_ifs <;> simp <;> omega

theorem popError_eq_none {s : State} :
    popError s = none ↔ s.config.stackBottom.val ≤ s.spNat ∧ s.spNat ≤ 0xF3 := by
  simp only [popError]
  split_ifs <;> simp <;> omega

/-- All a push does: the error of its check, or SP − 1 into SP and then the byte into the cell SP points at. -/
theorem pushByte_eq (s : State) (value : State → Byte) : pushByte s value =
    match pushError s with
    | some e => .error e
    | none =>
      .ok { s.setReg sp (s.getReg sp - 1#8) with
        mem := Memory.write s.mem (s.getReg sp - 1#8).toNat (value (s.setReg sp (s.getReg sp - 1#8))) } := by
  simp only [pushByte, pushCheck_eq]
  cases pushError s with
  | some e => rfl
  | none =>
    simp only [bind, Except.bind, State.getReg_setReg_self]
    exact memWrite_byte _ _ _

/-! ### The Executor around a handler -/

/-- The state step 5 leaves: pc past the instruction when the handler left the core running and the byte does not set pc
itself. -/
theorem afterHandler_advance {m : Mnemonic} {a : Nat} {t : State} (hr : t.status = .running)
    (hp : (decodeShape m.opcode).setsPc = false) :
    afterHandler m.opcode a t = t.setPc (a + (decodeShape m.opcode).operandCount + 1) := by
  simp [afterHandler, hr, hp]

theorem afterHandler_setsPc {m : Mnemonic} {a : Nat} {t : State} (hp : (decodeShape m.opcode).setsPc = true) :
    afterHandler m.opcode a t = t := by
  simp [afterHandler, hp]

theorem afterHandler_halted {op : Byte} {a : Nat} {t : State} {r : HaltReason} (h : t.status = .halted r) :
    afterHandler op a t = t := by
  simp [afterHandler, h]

/-- Step 5 changes pc alone. -/
theorem afterHandler_frame (op : Byte) (a : Nat) (t : State) :
    (afterHandler op a t).mem = t.mem ∧ (afterHandler op a t).regs = t.regs ∧ (afterHandler op a t).status = t.status ∧
      (afterHandler op a t).out = t.out ∧ (afterHandler op a t).config = t.config := by
  unfold afterHandler
  split_ifs <;> exact ⟨rfl, rfl, rfl, rfl, rfl⟩

theorem runHandler_ok {m : Mnemonic} {h : State → Except CoreError State} {s t : State} (e : h s = .ok t) :
    runHandler m h s = .next (afterHandler m.opcode s.pc t) := by
  simp [runHandler, e]

theorem runHandler_error {m : Mnemonic} {h : State → Except CoreError State} {s : State} {e : CoreError}
    (he : h s = .error e) : runHandler m h s = .next (s.raise e) := by
  simp [runHandler, he]

/-- A handler always ends the cycle in a next state: what step 5 makes of the handler's state, or the error taken from
the state the cycle began in. -/
theorem runHandler_cases (m : Mnemonic) (h : State → Except CoreError State) (s : State) :
    (∃ t, h s = .ok t ∧ runHandler m h s = .next (afterHandler m.opcode s.pc t)) ∨
    (∃ e, h s = .error e ∧ runHandler m h s = .next (s.raise e)) := by
  cases e : h s with
  | ok t => exact .inl ⟨t, rfl, runHandler_ok e⟩
  | error x => exact .inr ⟨x, rfl, runHandler_error e⟩

end Sys2Proof.Machine
end

