-- ==== Sys2Proof/Laws/Exec.lean ====
section
/-! SUPPORT. One equation per meaning on operands that name registers: the error its handler raises, or the state its
handler leaves with step 5 still to come (`afterHandler`). -/

namespace Sys2Proof.Machine

variable (s : State) (r a b : RegIdx)

theorem execLdi_regByte (imm : Byte) :
    execLdi (regByte r) imm s = .next (afterHandler Mnemonic.ldi.opcode s.pc (s.setReg r imm)) :=
  runHandler_ok (by simp [bind, Except.bind])

theorem execPrn_regByte :
    execPrn (regByte r) s = .next (afterHandler Mnemonic.prn.opcode s.pc (s.emit (.dec (s.getReg r)))) :=
  runHandler_ok (by simp [bind, Except.bind])

theorem execPra_regByte :
    execPra (regByte r) s = .next (afterHandler Mnemonic.pra.opcode s.pc (s.emit (.chr (s.getReg r)))) :=
  runHandler_ok (by simp [bind, Except.bind])

theorem execSt_regByte :
    execSt (regByte a) (regByte b) s = .next (afterHandler Mnemonic.st.opcode s.pc
      { s with mem := Memory.write s.mem (s.getReg a).toNat (s.getReg b) }) :=
  runHandler_ok (by simp [bind, Except.bind])

theorem execJmp_regByte : execJmp (regByte r) s = .next (s.setPc (s.getReg r).toNat) := by
  rw [execJmp, runHandler_ok (t := s.setPc (s.getReg r).toNat) (by simp [bind, Except.bind]),
    afterHandler_setsPc (by rw [setsPc_opcode])]

/-- An ALU handler on registers: what its function answers, into the first register. -/
theorem aluHandler_regByte (f : Byte → Byte → Except CoreError Byte) :
    aluHandler f (regByte a) (regByte b) s =
      match f (s.getReg a) (s.getReg b) with
      | .ok v => .ok (s.setReg a v)
      | .error e => .error e := by
  simp only [aluHandler, regPair_regByte, bind, Except.bind]
  cases f (s.getReg a) (s.getReg b) <;> rfl

theorem execPush_regByte : execPush (regByte r) s =
    match pushError s with
    | some e => .next (s.raise e)
    | none => .next (afterHandler Mnemonic.push.opcode s.pc { s.setReg sp (s.getReg sp - 1#8) with
        mem := Memory.write s.mem (s.getReg sp - 1#8).toNat ((s.setReg sp (s.getReg sp - 1#8)).getReg r) }) := by
  unfold execPush
  cases h : pushError s with
  | some e => exact runHandler_error (by simp [bind, Except.bind, pushByte_eq, h])
  | none => exact runHandler_ok (by simp only [reg_regByte, bind, Except.bind, pushByte_eq, h])

theorem execPop_regByte : execPop (regByte r) s =
    match popError s with
    | some e => .next (s.raise e)
    | none =>
      let t := s.setReg r (Memory.read s.mem (s.getReg sp).toNat)
      .next (afterHandler Mnemonic.pop.opcode s.pc (t.setReg sp (trunc8 ((t.getReg sp).toNat + 1)))) := by
  unfold execPop
  cases h : popError s with
  | some e => exact runHandler_error (by simp [bind, Except.bind, popCheck_eq, h])
  | none => exact runHandler_ok (by simp [bind, Except.bind, popCheck_eq, h])

/-- A CALL makes its checks in the order of spec 42_stack_subroutine.md R87: the return address, then the push. -/
theorem execCall_regByte : execCall (regByte r) s =
    if memSize ≤ s.pc + 2 then .next (s.raise (.memoryAccessViolation (s.pc + 2)))
    else
      match pushError s with
      | some e => .next (s.raise e)
      | none =>
        let t := s.setReg sp (s.getReg sp - 1#8)
        .next { t with
          mem := Memory.write s.mem (s.getReg sp - 1#8).toNat (trunc8 ((s.pc + 2 : Nat) : Int))
          pc := (t.getReg r).toNat } := by
  unfold execCall
  by_cases hret : memSize ≤ s.pc + 2
  · rw [if_pos hret]
    exact runHandler_error (by simp [bind, Except.bind, returnAddress, Nat.not_lt.mpr hret])
  · rw [if_neg hret]
    have hlt : s.pc + 2 < memSize := by omega
    cases h : pushError s with
    | some e => exact runHandler_error (by simp [bind, Except.bind, returnAddress, hlt, pushByte_eq, h])
    | none =>
      rw [runHandler_ok (by simp only [reg_regByte, bind, Except.bind, returnAddress, hlt, if_true, pushByte_eq, h]; rfl),
        afterHandler_setsPc (by rw [setsPc_opcode])]
      rfl

theorem execRet_eq : execRet s =
    match popError s with
    | some e => .next (s.raise e)
    | none => .next ((s.setPc (Memory.read s.mem (s.getReg sp).toNat).toNat).setReg sp
        (trunc8 ((s.getReg sp).toNat + 1))) := by
  unfold execRet
  cases h : popError s with
  | some e => exact runHandler_error (by simp [bind, Except.bind, popCheck_eq, h])
  | none =>
    rw [runHandler_ok (by simp only [bind, Except.bind, popCheck_eq, h, memRead_byte]; rfl),
      afterHandler_setsPc (by rw [setsPc_opcode])]

theorem execHlt_eq : execHlt s =
    .next (if s.config.hltAdvancesPc then (s.halt .normal).setPc (s.pc + 1) else s.halt .normal) := by
  unfold execHlt
  simp only [runHandler]
  split_ifs <;> rw [afterHandler_halted (r := .normal) rfl]

theorem execIret_eq : execIret s =
    match s.config.iretMode with
    | .omitted => .next (s.raise (.unknownOpcode Mnemonic.iret.opcode s.pc))
    | .noop => .next (s.setPc (s.pc + 1)) := by
  unfold execIret
  cases h : s.config.iretMode with
  | omitted => exact runHandler_error (by simp [h])
  | noop =>
    rw [runHandler_ok (t := s.setPc (s.pc + 1)) (by simp [h]), afterHandler_setsPc (by rw [setsPc_opcode])]

end Sys2Proof.Machine
end

