-- ==== Sys2Proof/Laws/Step.lean ====
section
/-! SUPPORT. What a fetch and a step can do, said once. -/

namespace Sys2Proof.Machine

/-! ### Fetch -/

/-- Fetch by where the instruction's bytes lie and whether its opcode byte is defined. -/
theorem fetch_eq (s : State) : fetch s =
    let op := Memory.read s.mem s.pc
    let count := (decodeShape op).operandCount
    if memSize ≤ s.pc then .error (.memoryAccessViolation s.pc)
    else if memSize < s.pc + 1 + count then .error (.memoryAccessViolation memSize)
    else
      match dispatch op ((List.range' (s.pc + 1) count).map (Memory.read s.mem)) with
      | none => .error (.unknownOpcode op s.pc)
      | some i => .ok i := by
  by_cases h : memSize ≤ s.pc
  · simp [fetch, memRead_of_le h, h, bind, Except.bind]
  · have hlt : s.pc < memSize := by omega
    simp only [fetch, memRead_of_lt hlt, bind, Except.bind, readBytes_eq, h, if_false]
    generalize hc : (decodeShape (Memory.read s.mem s.pc)).operandCount = count
    by_cases h2 : memSize < s.pc + 1 + count
    · rw [if_neg (by omega), if_pos h2, Nat.max_eq_right (by omega)]
    · have h3 : s.pc + 1 + count ≤ memSize := by omega
      cases hd : dispatch (Memory.read s.mem s.pc) ((List.range' (s.pc + 1) count).map (Memory.read s.mem)) <;>
        simp only [h3, h2, or_true, if_true, if_false, hd]

/-- A fetched instruction lies within memory, byte for byte. -/
theorem fetch_ok {s : State} {i : Instr} (h : fetch s = .ok i) :
    s.pc + (encode i).length ≤ memSize ∧ Memory.read s.mem s.pc = i.mnemonic.opcode ∧
      i.operands = (List.range' (s.pc + 1) i.operands.length).map (Memory.read s.mem) := by
  rw [fetch_eq] at h
  simp only at h
  split_ifs at h with h1 h2
  split at h
  · cases h
  · rename_i j hj
    cases h
    obtain ⟨hop, hos⟩ := dispatch_eq_some hj (by simp)
    have hlen := operands_length i
    rw [← hop] at hlen
    refine ⟨?_, hop, ?_⟩
    · simp only [encode, List.length_cons]
      omega
    · rw [hlen, ← hos]

/-- An instruction whose bytes stand at pc within memory is fetched. -/
theorem fetch_of_bytes {s : State} {i : Instr} (hpc : s.pc + (encode i).length ≤ memSize)
    (hop : Memory.read s.mem s.pc = i.mnemonic.opcode)
    (hos : (List.range' (s.pc + 1) i.operands.length).map (Memory.read s.mem) = i.operands) : fetch s = .ok i := by
  simp only [encode, List.length_cons] at hpc
  rw [fetch_eq, hop]
  dsimp only
  rw [← operands_length, hos, if_neg (by omega), if_neg (by omega), dispatch_encoded]

/-! ### exec -/

/-- What an instruction that meets no error leaves, the core running when its cycle began. Its operand bytes then name
registers. -/
def Completes (s : State) : Instr → State → Prop
  | .hlt, t => t = if s.config.hltAdvancesPc then (s.halt .normal).setPc (s.pc + 1) else s.halt .normal
  | .ret, t => popError s = none ∧
      t = (s.setPc (Memory.read s.mem (s.getReg sp).toNat).toNat).setReg sp (trunc8 ((s.getReg sp).toNat + 1))
  | .iret, t => s.config.iretMode = .noop ∧ t = s.setPc (s.pc + 1)
  | .push o, t => ∃ r, o = regByte r ∧ pushError s = none ∧
      t = { s.setReg sp (s.getReg sp - 1#8) with
        mem := Memory.write s.mem (s.getReg sp - 1#8).toNat ((s.setReg sp (s.getReg sp - 1#8)).getReg r)
        pc := s.pc + 2 }
  | .pop o, t => ∃ r, o = regByte r ∧ popError s = none ∧
      ∃ u, u = s.setReg r (Memory.read s.mem (s.getReg sp).toNat) ∧
        t = (u.setReg sp (trunc8 ((u.getReg sp).toNat + 1))).setPc (s.pc + 2)
  | .prn o, t => ∃ r, o = regByte r ∧ t = (s.emit (.dec (s.getReg r))).setPc (s.pc + 2)
  | .pra o, t => ∃ r, o = regByte r ∧ t = (s.emit (.chr (s.getReg r))).setPc (s.pc + 2)
  | .call o, t => ∃ r, o = regByte r ∧ s.pc + 2 < memSize ∧ pushError s = none ∧
      ∃ u, u = s.setReg sp (s.getReg sp - 1#8) ∧
        t = { u with
          mem := Memory.write s.mem (s.getReg sp - 1#8).toNat (trunc8 ((s.pc + 2 : Nat) : Int))
          pc := (u.getReg r).toNat }
  | .jmp o, t => ∃ r, o = regByte r ∧ t = s.setPc (s.getReg r).toNat
  | .ldi o imm, t => ∃ r, o = regByte r ∧ t = (s.setReg r imm).setPc (s.pc + 3)
  | .st o1 o2, t => ∃ a b, o1 = regByte a ∧ o2 = regByte b ∧
      t = { s with mem := Memory.write s.mem (s.getReg a).toNat (s.getReg b), pc := s.pc + 3 }
  | .add o1 o2, t | .sub o1 o2, t | .mul o1 o2, t | .div o1 o2, t =>
    ∃ a b v, o1 = regByte a ∧ o2 = regByte b ∧ t = (s.setReg a v).setPc (s.pc + 3)

/-- The end of a cycle whose byte does not set pc, with its operand count known. -/
theorem afterHandler_eq {m : Mnemonic} {n : Nat} {a : Nat} {t : State} (hr : t.status = .running)
    (hp : (decodeShape m.opcode).setsPc = false) (hn : (decodeShape m.opcode).operandCount = n) :
    afterHandler m.opcode a t = t.setPc (a + n + 1) := by
  rw [afterHandler_advance hr hp, hn]

/-- An instruction whose register operand does not resolve takes that error. -/
theorem runHandler_reg_error {m : Mnemonic} {o : Byte} {s : State} {e : CoreError}
    {k : State → RegIdx → Except CoreError State} (h : reg s o = .error e) :
    runHandler m (fun s => reg s o >>= k s) s = .next (s.raise e) :=
  runHandler_error (e := e) (by simp only [h, bind, Except.bind])

theorem runHandler_regPair_error {m : Mnemonic} {o1 o2 : Byte} {s : State} {e : CoreError}
    {k : State → RegIdx × RegIdx → Except CoreError State} (h : regPair s o1 o2 = .error e) :
    runHandler m (fun s => regPair s o1 o2 >>= k s) s = .next (s.raise e) :=
  runHandler_error (e := e) (by simp only [h, bind, Except.bind])

/-- An ALU instruction takes an error or writes some byte to its first register. -/
theorem alu_cases {m : Mnemonic} {f : Byte → Byte → Except CoreError Byte} {o1 o2 : Byte} {s t : State}
    (hr : s.status = .running) (hp : (decodeShape m.opcode).setsPc = false)
    (hn : (decodeShape m.opcode).operandCount = 2) (h : runHandler m (aluHandler f o1 o2) s = .next t) :
    (∃ e, t = s.raise e) ∨ ∃ a b v, o1 = regByte a ∧ o2 = regByte b ∧ t = (s.setReg a v).setPc (s.pc + 3) := by
  rcases regPair_cases s o1 o2 with ⟨a, b, rfl, rfl⟩ | ⟨_, e⟩ | ⟨_, _, e⟩
  · cases hv : f (s.getReg a) (s.getReg b) with
    | error e =>
      rw [runHandler_error (by rw [aluHandler_regByte, hv])] at h
      exact .inl ⟨e, by cases h; rfl⟩
    | ok v =>
      rw [runHandler_ok (by rw [aluHandler_regByte, hv]), afterHandler_eq (by simpa using hr) hp hn] at h
      exact .inr ⟨a, b, v, rfl, rfl, by cases h; rfl⟩
  all_goals
    unfold aluHandler at h
    rw [runHandler_regPair_error e] at h
    exact .inl ⟨_, by cases h; rfl⟩

/-- All an instruction can do in a cycle that began with the core running: take one error, or complete. -/
theorem exec_cases {i : Instr} {s t : State} (hr : s.status = .running) (h : exec i s = .next t) :
    (∃ e, t = s.raise e) ∨ Completes s i t := by
  have one : ∀ {m : Mnemonic} {o : Byte} {k : State → RegIdx → Except CoreError State},
      runHandler m (fun s => reg s o >>= k s) s = .next t →
      (∃ e, t = s.raise e) ∨ ∃ r, o = regByte r := by
    intro m o k h
    rcases reg_cases s o with hreg | ⟨_, e⟩
    · exact .inr hreg
    · rw [runHandler_reg_error e] at h
      exact .inl ⟨_, by cases h; rfl⟩
  cases i with
  | hlt =>
    simp only [exec, execHlt_eq] at h
    exact .inr (by cases h; rfl)
  | ret =>
    simp only [exec, execRet_eq] at h
    cases hp : popError s with
    | some e => exact .inl ⟨e, by rw [hp] at h; cases h; rfl⟩
    | none => exact .inr ⟨hp, by rw [hp] at h; cases h; rfl⟩
  | iret =>
    simp only [exec, execIret_eq] at h
    cases hm : s.config.iretMode with
    | omitted => exact .inl ⟨_, by rw [hm] at h; cases h; rfl⟩
    | noop => exact .inr ⟨hm, by rw [hm] at h; cases h; rfl⟩
  | push o =>
    rcases one (by rw [exec, execPush] at h; exact h) with he | ⟨r, rfl⟩
    · exact .inl he
    · simp only [exec, execPush_regByte] at h
      cases hp : pushError s with
      | some e => exact .inl ⟨e, by rw [hp] at h; cases h; rfl⟩
      | none =>
        rw [hp] at h
        dsimp only at h
        rw [afterHandler_eq (n := 1) (by simpa using hr) (by rw [setsPc_opcode]) (by rw [operandCount_opcode])] at h
        exact .inr ⟨r, rfl, hp, by cases h; rfl⟩
  | pop o =>
    rcases one (by rw [exec, execPop] at h; exact h) with he | ⟨r, rfl⟩
    · exact .inl he
    · simp only [exec, execPop_regByte] at h
      cases hp : popError s with
      | some e => exact .inl ⟨e, by rw [hp] at h; cases h; rfl⟩
      | none =>
        rw [hp] at h
        dsimp only at h
        rw [afterHandler_eq (n := 1) (by simpa using hr) (by rw [setsPc_opcode]) (by rw [operandCount_opcode])] at h
        exact .inr ⟨r, rfl, hp, _, rfl, by cases h; rfl⟩
  | prn o =>
    rcases one (by rw [exec, execPrn] at h; exact h) with he | ⟨r, rfl⟩
    · exact .inl he
    · rw [exec, execPrn_regByte,
        afterHandler_eq (n := 1) (by simpa using hr) (by rw [setsPc_opcode]) (by rw [operandCount_opcode])] at h
      exact .inr ⟨r, rfl, by cases h; rfl⟩
  | pra o =>
    rcases one (by rw [exec, execPra] at h; exact h) with he | ⟨r, rfl⟩
    · exact .inl he
    · rw [exec, execPra_regByte,
        afterHandler_eq (n := 1) (by simpa using hr) (by rw [setsPc_opcode]) (by rw [operandCount_opcode])] at h
      exact .inr ⟨r, rfl, by cases h; rfl⟩
  | call o =>
    rcases one (by rw [exec, execCall] at h; exact h) with he | ⟨r, rfl⟩
    · exact .inl he
    · simp only [exec, execCall_regByte] at h
      split_ifs at h with hret
      · exact .inl ⟨_, by cases h; rfl⟩
      · cases hp : pushError s with
        | some e => exact .inl ⟨e, by rw [hp] at h; cases h; rfl⟩
        | none => exact .inr ⟨r, rfl, by omega, hp, _, rfl, by rw [hp] at h; cases h; rfl⟩
  | jmp o =>
    rcases one (by rw [exec, execJmp] at h; exact h) with he | ⟨r, rfl⟩
    · exact .inl he
    · rw [exec, execJmp_regByte] at h
      exact .inr ⟨r, rfl, by cases h; rfl⟩
  | ldi o imm =>
    rcases one (by rw [exec, execLdi] at h; exact h) with he | ⟨r, rfl⟩
    · exact .inl he
    · rw [exec, execLdi_regByte,
        afterHandler_eq (n := 2) (by simpa using hr) (by rw [setsPc_opcode]) (by rw [operandCount_opcode])] at h
      exact .inr ⟨r, rfl, by cases h; rfl⟩
  | st o1 o2 =>
    rcases regPair_cases s o1 o2 with ⟨a, b, rfl, rfl⟩ | ⟨_, e⟩ | ⟨_, _, e⟩
    · rw [exec, execSt_regByte,
        afterHandler_eq (n := 2) (by simpa using hr) (by rw [setsPc_opcode]) (by rw [operandCount_opcode])] at h
      exact .inr ⟨a, b, rfl, rfl, by cases h; rfl⟩
    all_goals
      rw [exec, execSt, runHandler_regPair_error e] at h
      exact .inl ⟨_, by cases h; rfl⟩
  | add o1 o2 => exact alu_cases hr (by rw [setsPc_opcode]) (by rw [operandCount_opcode]) h
  | sub o1 o2 => exact alu_cases hr (by rw [setsPc_opcode]) (by rw [operandCount_opcode]) h
  | mul o1 o2 => exact alu_cases hr (by rw [setsPc_opcode]) (by rw [operandCount_opcode]) h
  | div o1 o2 => exact alu_cases hr (by rw [setsPc_opcode]) (by rw [operandCount_opcode]) h

/-! ### step -/

/-- All a step can do: it begins with the core running, and takes an error or fetches an instruction that completes. -/
theorem step_cases {s t : State} (h : step s = .next t) : s.status = .running ∧
    ((∃ e, t = s.raise e) ∨ ∃ i, fetch s = .ok i ∧ Completes s i t) := by
  unfold step at h
  split at h
  · cases h
  · rename_i hr
    refine ⟨hr, ?_⟩
    split at h
    · exact .inl ⟨_, by cases h; rfl⟩
    · rename_i i hi
      rcases exec_cases hr h with he | hc
      · exact .inl he
      · exact .inr ⟨i, hi, hc⟩

end Sys2Proof.Machine
end

