-- ==== Sys2Proof/Laws/Utf8.lean ====
section
/-! SUPPORT. Reading UTF-8: what one byte does, and what the bytes of one character do. -/

namespace Sys2Proof.Machine

/-- The value of a byte that a number below 256 was made into. -/
theorem toNat_byte {n : Nat} (h : n < 256) : (BitVec.ofNat 8 n).toNat = n := by
  rw [BitVec.toNat_ofNat, Nat.mod_eq_of_lt h]

/-- A continuation byte adds its six bits. -/
theorem utf8Continue_tail (p : Utf8Pending) {d : Nat} (h : d < 64) :
    utf8Continue p (BitVec.ofNat 8 (0x80 + d)) = some ⟨p.value * 64 + d, p.remaining - 1, p.least⟩ := by
  unfold utf8Continue
  rw [toNat_byte (by omega), if_pos (by omega)]
  congr 2
  omega

/-- Reading on in the middle of a character. -/
theorem textFrom_more {pending : Option Utf8Pending} {p : Utf8Pending} {b : Byte} (bs : List Byte)
    (h : pending.elim (utf8Lead b) (fun q => utf8Continue q b) = some p) (hr : p.remaining ≠ 0) :
    textFrom pending (b :: bs) = textFrom (some p) bs := by
  rw [textFrom, h]
  exact if_neg hr

/-- Reading the last byte of a character. -/
theorem textFrom_last {pending : Option Utf8Pending} {p : Utf8Pending} {b : Byte} (bs : List Byte) {c : Char}
    (h : pending.elim (utf8Lead b) (fun q => utf8Continue q b) = some p) (hr : p.remaining = 0)
    (hc : utf8Finish p = some c) : textFrom pending (b :: bs) = (textFrom none bs).map (c :: ·) := by
  rw [textFrom, h]
  simp only [hr, if_true, hc, Option.bind_some]

/-- The value of a character finishes as that character, when it is not overlong. -/
theorem utf8Finish_toNat (c : Char) {r least : Nat} (h : least ≤ c.toNat) :
    utf8Finish ⟨c.toNat, r, least⟩ = some c := by
  have hv : c.toNat.isValidChar := c.valid
  unfold utf8Finish
  rw [if_pos ⟨h, hv⟩]
  simp

/-- Reading a continuation byte that is not the last. -/
theorem textFrom_tail (v r least : Nat) {d : Nat} (bs : List Byte) (h : d < 64) :
    textFrom (some ⟨v, r + 2, least⟩) (BitVec.ofNat 8 (0x80 + d) :: bs) = textFrom (some ⟨v * 64 + d, r + 1, least⟩) bs :=
  textFrom_more bs (utf8Continue_tail ⟨v, r + 2, least⟩ h) (Nat.succ_ne_zero r)

/-- Reading the last continuation byte of a character. -/
theorem textFrom_tail_last {v least d : Nat} {c : Char} (bs : List Byte) (h : d < 64) (hl : least ≤ c.toNat)
    (hv : v * 64 + d = c.toNat) :
    textFrom (some ⟨v, 1, least⟩) (BitVec.ofNat 8 (0x80 + d) :: bs) = (textFrom none bs).map (c :: ·) :=
  textFrom_last bs (utf8Continue_tail ⟨v, 1, least⟩ h) rfl (by simpa [hv] using utf8Finish_toNat c hl)

/-- Reading the first byte of a character of several bytes. -/
theorem textFrom_lead {b : Byte} {v r least : Nat} (bs : List Byte) (h : utf8Lead b = some ⟨v, r + 1, least⟩) :
    textFrom none (b :: bs) = textFrom (some ⟨v, r + 1, least⟩) bs :=
  textFrom_more bs h (Nat.succ_ne_zero r)

/-- The bytes of one character are read as it. -/
theorem textFrom_utf8Bytes (c : Char) (rest : List Byte) :
    textFrom none (utf8Bytes c ++ rest) = (textFrom none rest).map (c :: ·) := by
  have hn : c.toNat < 0x110000 := by
    have hv : c.toNat.isValidChar := c.valid
    unfold Nat.isValidChar at hv
    omega
  have tail : ∀ k, c.toNat / 64 ^ k % 64 < 64 := fun k => Nat.mod_lt _ (by omega)
  unfold utf8Bytes
  dsimp only
  split_ifs with h1 h2 h3 <;> simp only [List.cons_append, List.nil_append]
  · exact textFrom_last rest (p := ⟨c.toNat, 0, 0⟩) (by simp [utf8Lead, toNat_byte (n := c.toNat) (by omega), h1]) rfl
      (utf8Finish_toNat c (by omega))
  · have lead : utf8Lead (BitVec.ofNat 8 (0xC0 + c.toNat / 64)) = some ⟨c.toNat / 64, 1, 0x80⟩ := by
      unfold utf8Lead
      rw [toNat_byte (by omega)]
      dsimp only
      rw [if_neg (by omega), if_neg (by omega), if_pos (by omega), Nat.add_sub_cancel_left]
    rw [textFrom_lead _ lead]
    exact textFrom_tail_last rest (tail 0) (by omega) (by simp only [pow_zero, Nat.div_one]; omega)
  · have lead : utf8Lead (BitVec.ofNat 8 (0xE0 + c.toNat / 64 ^ 2)) = some ⟨c.toNat / 64 ^ 2, 2, 0x800⟩ := by
      unfold utf8Lead
      rw [toNat_byte (by omega)]
      dsimp only
      rw [if_neg (by omega), if_neg (by omega), if_neg (by omega), if_pos (by omega), Nat.add_sub_cancel_left]
    rw [textFrom_lead _ lead, textFrom_tail _ 0 _ _ (tail 1)]
    exact textFrom_tail_last rest (tail 0) (by omega) (by simp only [pow_zero, pow_one, Nat.div_one]; omega)
  · have lead : utf8Lead (BitVec.ofNat 8 (0xF0 + c.toNat / 64 ^ 3)) = some ⟨c.toNat / 64 ^ 3, 3, 0x10000⟩ := by
      unfold utf8Lead
      rw [toNat_byte (by omega)]
      dsimp only
      rw [if_neg (by omega), if_neg (by omega), if_neg (by omega), if_neg (by omega), if_pos (by omega),
        Nat.add_sub_cancel_left]
    rw [textFrom_lead _ lead, textFrom_tail _ 1 _ _ (tail 2), textFrom_tail _ 0 _ _ (tail 1)]
    exact textFrom_tail_last rest (tail 0) (by omega) (by simp only [pow_zero, pow_one, Nat.div_one]; omega)

end Sys2Proof.Machine
end

