-- ==== Sys2Proof/Tests/Slice0.lean ====
section
/-! SUPPORT. The model's own tests. Expected results come from spec 95_test_vectors.md (the row is named in each test) or from
the encodings of 30_encoding.md R57. Then one witness for the hypotheses of each statement that has any. -/

namespace Sys2Proof.Tests

open Sys2Proof Sys2Proof.Machine

/-- The state after reset with the given bytes placed at an address and pc there. -/
def at_ (pc : Nat) (bytes : List Byte) : State :=
  { State.reset with mem := Memory.writeBytes [] pc bytes, pc := pc }

/-- The same with STACK_BOTTOM, IRET_MODE or HLT_ADVANCES_PC changed. -/
def withBottom (n : Fin 0xF4) (s : State) : State := { s with config := { s.config with stackBottom := n } }

def withIretNoop (s : State) : State := { s with config := { s.config with iretMode := .noop } }

def withHltAdvance (s : State) : State := { s with config := { s.config with hltAdvancesPc := true } }

/-- A cell of memory changed. -/
def withCell (a : Nat) (v : Byte) (s : State) : State := { s with mem := Memory.write s.mem a v }

/-- The next state of an outcome, if it is one. -/
def nextOf : Result → Option State
  | .next s => some s
  | .fault _ => none
  | .refused _ => none

/-- The status of the next state. -/
def statusOf (o : Result) : Option RunStatus := (nextOf o).map State.status

/-- A register, and pc, of the next state. -/
def regAndPc (r : RegIdx) (o : Result) : Option (Byte × Nat) := (nextOf o).map fun t => (t.getReg r, t.pc)

/-- The error the next state carries. -/
def errorOf (o : Result) : Option CoreError :=
  match statusOf o with
  | some (.halted (.fault e)) => some e
  | _ => none

/-! ### Decoding: a word of each instruction written out from R48, R53, R55 and R57 -/

theorem test_decode_hlt : decode [0b00000001#8] = .ok (.hlt, []) := by decide
theorem test_decode_ret : decode [0b00010001#8] = .ok (.ret, []) := by decide
theorem test_decode_iret : decode [0b00010011#8] = .ok (.iret, []) := by decide
theorem test_decode_push : decode [0b01000101#8, 3#8] = .ok (.push 3#8, []) := by decide
theorem test_decode_pop : decode [0b01000110#8, 3#8] = .ok (.pop 3#8, []) := by decide
theorem test_decode_prn : decode [0b01000111#8, 3#8] = .ok (.prn 3#8, []) := by decide
theorem test_decode_pra : decode [0b01001000#8, 3#8] = .ok (.pra 3#8, []) := by decide
theorem test_decode_call : decode [0b01010000#8, 3#8] = .ok (.call 3#8, []) := by decide
theorem test_decode_jmp : decode [0b01010100#8, 3#8] = .ok (.jmp 3#8, []) := by decide
theorem test_decode_ldi : decode [0b10000010#8, 3#8, 200#8] = .ok (.ldi 3#8 200#8, []) := by decide
theorem test_decode_st : decode [0b10000100#8, 3#8, 5#8] = .ok (.st 3#8 5#8, []) := by decide
theorem test_decode_add : decode [0b10100000#8, 3#8, 5#8] = .ok (.add 3#8 5#8, []) := by decide
theorem test_decode_sub : decode [0b10100001#8, 3#8, 5#8] = .ok (.sub 3#8 5#8, []) := by decide
theorem test_decode_mul : decode [0b10100010#8, 3#8, 5#8] = .ok (.mul 3#8 5#8, []) := by decide
theorem test_decode_div : decode [0b10100011#8, 3#8, 5#8] = .ok (.div 3#8 5#8, []) := by decide

/-- DC19: the fields of 0x3F. -/
theorem test_shape_3F : decodeShape 0x3F#8 = ⟨0, true, true, 15#4⟩ := by decide

/-- The table's numbering of bits: LDI R0, 8 is 0x82 in bits 7..0, 0x00 in bits 15..8, 0x08 in bits 23..16 (R66). -/
theorem test_decodeTableWord_ldi : decodeTableWord 24 0x080082 = some (.ldi 0#8 8#8) := by decide

/-- A row's word placed after reset runs in the very next step. -/
theorem test_withFetchWord_ldi : regAndPc 0 (step (State.reset.withFetchWord 24 0x080082)) = some (8#8, 3) := by decide

/-! ### Well-formedness: a term each check refuses -/

theorem test_wellFormed_refuses_only_operand : (Instr.push 8#8).wellFormed = false := by decide
theorem test_wellFormed_refuses_first_operand : (Instr.add 8#8 0#8).wellFormed = false := by decide
theorem test_wellFormed_refuses_second_operand : (Instr.st 7#8 255#8).wellFormed = false := by decide
theorem test_wellFormed_takes_any_immediate : (Instr.ldi 7#8 255#8).wellFormed = true := by decide

/-! ### One step of each instruction -/

/-- A3: 200 + 100 = 44. -/
theorem test_add_wraps :
    regAndPc 0 (step (((at_ 9 [0xA0#8, 0#8, 1#8]).setReg 0 200#8).setReg 1 100#8)) = some (44#8, 12) := by decide

/-- A21: the same register twice. -/
theorem test_add_same_register : regAndPc 0 (step ((at_ 9 [0xA0#8, 0#8, 0#8]).setReg 0 200#8)) = some (144#8, 12) := by
  decide

/-- A7: 5 − 7 = 254. -/
theorem test_sub_borrows :
    regAndPc 0 (step (((at_ 9 [0xA1#8, 0#8, 1#8]).setReg 0 5#8).setReg 1 7#8)) = some (254#8, 12) := by decide

/-- A12: 255 · 255 = 1. -/
theorem test_mul_keeps_low_byte :
    regAndPc 0 (step (((at_ 9 [0xA2#8, 0#8, 1#8]).setReg 0 255#8).setReg 1 255#8)) = some (1#8, 12) := by decide

/-- A15: 255 / 2 = 127. -/
theorem test_div_truncates :
    regAndPc 0 (step (((at_ 9 [0xA3#8, 0#8, 1#8]).setReg 0 255#8).setReg 1 2#8)) = some (127#8, 12) := by decide

/-- E3: InvalidRegister of the first operand, before the second and before DivisionByZero. -/
theorem test_div_checks_registers_first : errorOf (step (at_ 9 [0xA3#8, 9#8, 8#8])) = some (.invalidRegister 9#8 9) := by
  decide

/-- S11: PUSH R7 stores the decremented SP. -/
theorem test_push_sp : (nextOf (step (at_ 9 [0x45#8, 7#8]))).map (fun t => (t.getReg 7, Memory.read t.mem 0xF3)) =
    some (0xF3#8, 0xF3#8) := by decide

/-- S7: STACK_BOTTOM = SP = 0xF0. -/
theorem test_push_overflows :
    errorOf (step (withBottom 0xF0 ((at_ 9 [0x45#8, 0#8]).setReg 7 0xF0#8))) = some .stackOverflow := by decide

/-- S2. -/
theorem test_pop : (nextOf (step (withCell 0xF3 0x2A#8 ((at_ 9 [0x46#8, 1#8]).setReg 7 0xF3#8)))).map
    (fun t => (t.getReg 1, t.getReg 7, Memory.read t.mem 0xF3, t.pc)) = some (0x2A#8, 0xF4#8, 0x2A#8, 11) := by decide

/-- S13: POP R7 of 0xFF. -/
theorem test_pop_sp_wraps :
    regAndPc 7 (step (withCell 0xF3 0xFF#8 ((at_ 9 [0x46#8, 7#8]).setReg 7 0xF3#8))) = some (0#8, 11) := by decide

/-- S18: CALL R7 jumps to the decremented SP. -/
theorem test_call_sp : (nextOf (step (at_ 0 [0x50#8, 7#8]))).map
    (fun t => (t.getReg 7, Memory.read t.mem 0xF3, t.pc)) = some (0xF3#8, 2#8, 0xF3) := by decide

/-- S16: a return address of 0x100. -/
theorem test_call_at_end : errorOf (step (at_ 0xFE [0x50#8, 0#8])) = some (.memoryAccessViolation 0x100) := by decide

/-- S15. -/
theorem test_ret : regAndPc 7 (step (withCell 0xF3 0x12#8 ((at_ 9 [0x11#8]).setReg 7 0xF3#8))) = some (0xF4#8, 0x12) := by
  decide

/-- S4. -/
theorem test_ret_underflows : errorOf (step (at_ 9 [0x11#8])) = some .stackUnderflow := by decide

/-- S19. -/
theorem test_jmp : regAndPc 2 (step ((at_ 9 [0x54#8, 2#8]).setReg 2 0x20#8)) = some (0x20#8, 0x20) := by decide

/-- M2. -/
theorem test_ldi_sp : regAndPc 7 (step (at_ 9 [0x82#8, 7#8, 0x10#8])) = some (0x10#8, 12) := by decide

/-- CY4: the last instruction of memory moves pc to 0x100 without wrap. -/
theorem test_prn_at_end : (nextOf (step (at_ 0xFE [0x47#8, 0#8]))).map (fun t => (t.out, t.pc)) =
    some ([.dec 0#8], 0x100) := by decide

/-- M7. -/
theorem test_pra : (nextOf (step ((at_ 9 [0x48#8, 0#8]).setReg 0 72#8))).map (fun t => (t.out, t.pc)) =
    some ([.chr 72#8], 11) := by decide

/-- M10. -/
theorem test_st : (nextOf (step (((at_ 9 [0x84#8, 0#8, 1#8]).setReg 0 0x10#8).setReg 1 7#8))).map
    (fun t => (Memory.read t.mem 0x10, t.pc)) = some (7#8, 12) := by decide

/-- M15: a store into its own operand byte does not change the instruction. -/
theorem test_st_own_operand : (nextOf (step (((at_ 0 [0x84#8, 0#8, 1#8]).setReg 0 1#8).setReg 1 5#8))).map
    (fun t => (Memory.read t.mem 1, t.pc)) = some (5#8, 3) := by decide

/-- CY3: HLT in the last cell. -/
theorem test_hlt_keeps_pc : (nextOf (step (at_ 0xFF [0x01#8]))).map (fun t => (t.status, t.pc)) =
    some (.halted .normal, 0xFF) := by decide

/-- R72: with HLT_ADVANCES_PC. -/
theorem test_hlt_advances_pc : (nextOf (step (withHltAdvance (at_ 5 [0x01#8])))).map (fun t => (t.status, t.pc)) =
    some (.halted .normal, 6) := by decide

/-- Y2. -/
theorem test_iret_omitted : errorOf (step (at_ 4 [0x13#8])) = some (.unknownOpcode 0x13#8 4) := by decide

/-- Y3. -/
theorem test_iret_noop : (nextOf (step (withIretNoop (at_ 4 [0x13#8])))).map (fun t => (t.status, t.pc)) =
    some (.running, 5) := by decide

/-- CY5, CY7, CY8: the order of the first three checks. -/
theorem test_fetch_outside : errorOf (step (at_ 0x100 [])) = some (.memoryAccessViolation 0x100) := by decide
theorem test_operands_before_dispatch : errorOf (step (at_ 0xFD [0xC0#8])) = some (.memoryAccessViolation 0x100) := by
  decide
theorem test_unknown_opcode : errorOf (step (at_ 0xFC [0xFF#8])) = some (.unknownOpcode 0xFF#8 0xFC) := by decide

/-- R101: the interrupt return is refused by name. -/
theorem test_iretContract_is_refused : iretContract State.reset = .refused .iretContract := rfl

/-- LD1 (its first, fourth and fifth lines), LD2, LD3, LD4. -/
theorem test_imageOfLines : imageOfLines 1
    [['1', '0', '0', '0', '0', '0', '1', '0', ' ', '#', ' ', 'L'], [' ', ' '], ['#', ' ', 'n'], ['1']] =
    .ok [0x82#8, 1#8] := by rfl
theorem test_line_of_other_digits : parseLine ['1', '3', '0'] = .malformed := by decide
theorem test_line_of_nine_digits : parseLine ['1', '0', '0', '0', '0', '0', '0', '0', '0'] = .malformed := by decide

/-- M6 and M7 rendered without separator, and a code point above 127 in UTF-8. -/
theorem test_renderBytes :
    renderBytes (referenceRenderer (fun _ => []) (fun _ => []) []) [.dec 255#8, .chr 72#8, .chr 0xE9#8] =
      [50#8, 53#8, 53#8, 72#8, 0xC3#8, 0xA9#8] := by decide

/-- Text before, between and after the events. -/
theorem test_render_separators :
    render (referenceRenderer (fun _ => ['<']) (fun _ => ['>']) [',']) [.dec 0#8, .chr 72#8] =
      ['<', '0', '>', ',', '<', 'H', '>'] := by decide

/-- The file `1 # é`, a line feed and `0`, as its UTF-8 bytes: the image 1, 0. -/
theorem test_loadFile : (nextOf (loadFile [0x31#8, 0x20#8, 0x23#8, 0xC3#8, 0xA9#8, 0x0A#8, 0x30#8]
    (withCell 1 9#8 State.reset))).map (fun t => (Memory.read t.mem 0, Memory.read t.mem 1)) = some (1#8, 0#8) := by decide

/-- Not UTF-8: a lone continuation byte, a cut character, an overlong form, a surrogate, a value above U+10FFFF. -/
theorem test_loadFile_refuses : ([[0x80#8], [0x31#8, 0xC3#8], [0xC0#8, 0xB1#8], [0xED#8, 0xA0#8, 0x80#8],
    [0xF4#8, 0x90#8, 0x80#8, 0x80#8]] : List (List Byte)).all (fun f => decide (textOfBytes f = none)) = true ∧
    loadFile [0x80#8] State.reset = .refused .notUtf8 := ⟨by decide, rfl⟩

/-- UTF-8 of U+20AC and U+1F600, a three-byte and a four-byte character, by hand. -/
theorem test_utf8Bytes : utf8Bytes (Char.ofNat 0x20AC) = [0xE2#8, 0x82#8, 0xAC#8] ∧
    utf8Bytes (Char.ofNat 0x1F600) = [0xF0#8, 0x9F#8, 0x98#8, 0x80#8] := by decide

/-! ### Witnesses: a state and operands that meet the hypotheses of each statement, one for each clause -/

theorem witness_StepKeepsInvariant : ∃ s t : State, s.Inv ∧ step s = .next t :=
  ⟨at_ 0xFE [0x47#8, 0#8], _, ⟨by decide, by decide⟩, rfl⟩

theorem witness_EncodeOfDecode : decode [0x45#8, 9#8, 1#8] = .ok (.push 9#8, [1#8]) := by decide

theorem witness_StepRunsTheDecodedInstruction : (at_ 0xFD [0x82#8, 0#8, 8#8]).status = .running ∧
    decode (bytesFrom (at_ 0xFD [0x82#8, 0#8, 8#8]).mem (at_ 0xFD [0x82#8, 0#8, 8#8]).pc) = .ok (.ldi 0#8 8#8, []) := by
  decide

theorem witness_HaltedStateHasNoCycle : (State.reset.halt .normal).status = .halted .normal := rfl

theorem witness_CycleIsTotal : State.reset.status = .running ∧
    mnemonicOf (Memory.read State.reset.mem State.reset.pc) = none := by decide
theorem witness_CycleIsTotal_iret : (at_ 4 [0x13#8]).status = .running ∧
    mnemonicOf (Memory.read (at_ 4 [0x13#8]).mem 4) = some .iret ∧ (at_ 4 [0x13#8]).config.iretMode = .omitted := by decide

theorem witness_ErrorsArePrecise : ∃ t : State, step (at_ 9 [0x11#8]) = .next t ∧ t.status = .halted (.fault .stackUnderflow) :=
  ⟨_, rfl, by decide⟩

theorem witness_OpcodeFetchOutsideMemoryFaults : (at_ 256 []).status = .running ∧ 256 ≤ (at_ 256 []).pc := by decide

/-- The third operand of a count-3 byte outside memory, the first two inside. -/
theorem witness_OperandFetchIsBoundsChecked_outside : (at_ 0xFD [0xC0#8]).status = .running ∧ (at_ 0xFD [0xC0#8]).pc < 256 ∧
    3 ≤ (Memory.read (at_ 0xFD [0xC0#8]).mem 0xFD).toNat / 64 ∧ 256 ≤ (at_ 0xFD [0xC0#8]).pc + 3 ∧
    (at_ 0xFD [0xC0#8]).pc + 2 < 256 := by decide

theorem witness_OperandFetchIsBoundsChecked_inside : (at_ 0xFD [0x82#8]).status = .running ∧
    (at_ 0xFD [0x82#8]).pc + (Memory.read (at_ 0xFD [0x82#8]).mem 0xFD).toNat / 64 < 256 := by decide

theorem witness_IllegalByteIsUnknownOpcode : (at_ 0xFC [0xFF#8]).status = .running ∧ (at_ 0xFC [0xFF#8]).pc < 256 ∧
    (Memory.read (at_ 0xFC [0xFF#8]).mem 0xFC).toNat ∉
      [0x01, 0x11, 0x13, 0x45, 0x46, 0x47, 0x48, 0x50, 0x54, 0x82, 0x84, 0xA0, 0xA1, 0xA2, 0xA3] ∧
    (at_ 0xFC [0xFF#8]).pc + (Memory.read (at_ 0xFC [0xFF#8]).mem 0xFC).toNat / 64 < 256 := by decide

/-- Both sides of the equivalence hold of a state with three errors, the first of which is the one named. -/
theorem witness_ErrorPriority : (at_ 9 [0xA3#8, 9#8, 8#8]).status = .running ∧
    firstError (at_ 9 [0xA3#8, 9#8, 8#8]) = some (.invalidRegister 9#8 9) ∧ firstError (at_ 9 [0x01#8]) = none := by decide

theorem witness_InvalidRegisterOperandFaults :
    (Instr.add 7#8 8#8).registerOperands.find? (fun b => decide (8 ≤ b.toNat)) = some 8#8 := by decide

theorem witness_PcAfterACycle_running : fetch (at_ 0xFE [0x47#8, 0#8]) = .ok (.prn 0#8) ∧
    statusOf (step (at_ 0xFE [0x47#8, 0#8])) = some .running ∧ (decodeShape Mnemonic.prn.opcode).setsPc = false := by decide
theorem witness_PcAfterACycle_halted : fetch (at_ 0xFF [0x01#8]) = .ok .hlt ∧
    statusOf (step (at_ 0xFF [0x01#8])) = some (.halted .normal) := by decide
theorem witness_PcAfterACycle_error : fetch (at_ 9 [0x11#8]) = .ok .ret ∧
    statusOf (step (at_ 9 [0x11#8])) = some (.halted (.fault .stackUnderflow)) := by decide

theorem witness_ControlTransfers_none : (at_ 4 [0x13#8]).status = .running ∧
    statusOf (exec .iret (withIretNoop (at_ 4 [0x13#8]))) = some .running ∧
    Instr.iret.mnemonic ∉ [Mnemonic.call, .ret, .jmp] := by decide
theorem witness_ControlTransfers_register : (at_ 0 [0x50#8, 7#8]).status = .running ∧
    statusOf (exec (.call (regByte 7)) (at_ 0 [0x50#8, 7#8])) = some .running ∧
    (Instr.call (regByte 7)).mnemonic ∈ [Mnemonic.call, .ret, .jmp] := by decide
theorem witness_ControlTransfers_ret : ((at_ 9 [0x11#8]).setReg 7 0#8).status = .running ∧
    statusOf (exec .ret ((at_ 9 [0x11#8]).setReg 7 0#8)) = some .running := by decide

theorem witness_AluResults : State.reset.status = .running ∧ (State.reset.getReg 7).toNat ≠ 0 ∧
    (State.reset.getReg 0).toNat = 0 := by decide

theorem witness_LdiLoadsTheImmediate : State.reset.status = .running := rfl
theorem witness_OutputInstructionsEmit : State.reset.status = .running := rfl
theorem witness_StStoresThroughARegister : State.reset.status = .running := rfl

/-- A store of HLT into the last cell. -/
theorem witness_StoreIntoTheNextInstructionIsFetched :
    let s := ((at_ 0xFC [0x84#8, 0#8, 1#8]).setReg 0 0xFF#8).setReg 1 0x01#8
    s.status = .running ∧ fetch s = .ok (.st (regByte 0) (regByte 1)) ∧ (s.getReg 0).toNat = s.pc + 3 ∧
      s.getReg 1 = Mnemonic.hlt.opcode := by decide

/-- A store of LDI whose operand bytes end at the last cell, and one of a byte of no instruction. -/
theorem witness_StoreIntoTheNextInstructionIsFetched_others :
    let s (op : Byte) := ((at_ 0xFA [0x84#8, 0#8, 1#8]).setReg 0 0xFD#8).setReg 1 op
    (s 0x82#8).status = .running ∧ fetch (s 0x82#8) = .ok (.st (regByte 0) (regByte 1)) ∧
      ((s 0x82#8).getReg 0).toNat = (s 0x82#8).pc + 3 ∧ (s 0x82#8).pc + 3 + (0x82#8 : Byte).toNat / 64 < 256 ∧
      dispatch 0x82#8 [0#8, 0#8] = some (.ldi 0#8 0#8) ∧
      fetch (s 0#8) = .ok (.st (regByte 0) (regByte 1)) ∧ mnemonicOf 0#8 = none := by decide

/-- SP at both ends of what a push allows. -/
theorem witness_PushStoresBelowTheStackPointer :
    let ok (s : State) : Bool :=
      s.status == .running && decide (s.config.stackBottom.val < (s.getReg 7).toNat) && decide ((s.getReg 7).toNat ≤ 0xF4)
    ok State.reset = true ∧ ok (withBottom 0xF0 (State.reset.setReg 7 0xF1#8)) = true := by decide

/-- SP at both ends of what a pop allows. -/
theorem witness_PopLoadsFromTheStackPointer :
    let ok (s : State) : Bool :=
      s.status == .running && decide (s.config.stackBottom.val ≤ (s.getReg 7).toNat) && decide ((s.getReg 7).toNat ≤ 0xF3)
    ok (State.reset.setReg 7 0xF3#8) = true ∧ ok (withBottom 0xF0 (State.reset.setReg 7 0xF0#8)) = true := by decide

theorem witness_CallPushesTheReturnAddress :
    let s := at_ 0xFD []
    s.status = .running ∧ s.pc + 2 < 256 ∧ s.config.stackBottom.val < (s.getReg 7).toNat ∧ (s.getReg 7).toNat ≤ 0xF4 := by
  decide

theorem witness_RetPopsThePc :
    let s := State.reset.setReg 7 0#8
    s.status = .running ∧ s.config.stackBottom.val ≤ (s.getReg 7).toNat ∧ (s.getReg 7).toNat ≤ 0xF3 := by decide

/-- SP one step outside what each access allows, on each side. -/
theorem witness_StackBoundErrors :
    let low := withBottom 0xF0 (State.reset.setReg 7 0xEF#8)
    (State.reset.setReg 7 0#8).spNat ≤ State.reset.config.stackBottom.val ∧ 0xF4 < (State.reset.setReg 7 0xF5#8).spNat ∧
      0xF3 < State.reset.spNat ∧ low.spNat < low.config.stackBottom.val ∧ State.reset.pc + 2 < 256 := by decide

theorem witness_CallAtTheEndOfMemoryFaults : 256 ≤ (at_ 0xFE []).pc + 2 := by decide

theorem witness_PushPopRoundTrip : State.reset.status = .running ∧ (0 : RegIdx) ≠ 7 ∧ (6 : RegIdx) ≠ 7 ∧
    State.reset.config.stackBottom.val < (State.reset.getReg 7).toNat ∧ (State.reset.getReg 7).toNat ≤ 0xF4 := by decide

/-- A subroutine that left SP and the byte at SP alone and changed R3. -/
theorem witness_CallThenRetResumes :
    let u := withCell 0xF3 2#8 ((State.reset.setReg 7 0xF3#8).setReg 3 9#8)
    State.reset.status = .running ∧ u.config = State.reset.config ∧
    (nextOf (exec (.call (regByte 0)) State.reset)).map (fun t => (t.status, t.getReg 7, Memory.read t.mem (t.getReg 7).toNat)) =
      some (.running, u.getReg 7, Memory.read u.mem (u.getReg 7).toNat) := by decide

theorem witness_IretByMode : (withIretNoop State.reset).config.iretMode = .noop ∧
    State.reset.config.iretMode = .omitted := by decide

theorem witness_OnlyHltOrAnErrorEndsARun_step : ∃ t, step (at_ 5 [0x01#8]) = .next t := ⟨_, rfl⟩
theorem witness_OnlyHltOrAnErrorEndsARun_loop :
    let s := (at_ 3 [0x54#8, 2#8]).setReg 2 3#8
    s.status = .running ∧ fetch s = .ok (.jmp (regByte 2)) ∧ (s.getReg 2).toNat = s.pc := by decide

theorem witness_OutputIsOnlyAppended : ∃ t, step (at_ 9 [0x47#8, 0#8]) = .next t := ⟨_, rfl⟩

/-- A push that changes a cell and SP, so the hypotheses of both statements about writes hold of it. -/
theorem witness_MemoryIsWrittenOnlyByStPushCall : ∃ t, step (at_ 9 [0x45#8, 7#8]) = .next t ∧
    Memory.read t.mem 0xF3 ≠ Memory.read (at_ 9 [0x45#8, 7#8]).mem 0xF3 := ⟨_, rfl, by decide⟩
theorem witness_RegistersAreWrittenOnlyByTheirInstructions : ∃ t, step (at_ 9 [0x45#8, 7#8]) = .next t ∧
    t.getReg 7 ≠ (at_ 9 [0x45#8, 7#8]).getReg 7 := ⟨_, rfl, by decide⟩

theorem witness_StepKeepsTheParameters : ∃ t, step (withBottom 0xF0 (at_ 9 [0x01#8])) = .next t := ⟨_, rfl⟩

theorem witness_WriteKeepsTheCanonicalForm : Memory.wf [(3, 1#8), (255, 2#8)] = true ∧ 255 < 256 := by decide

theorem witness_EqualMemoriesAreEqualData :
    Memory.wf (Memory.write (Memory.write [] 5 1#8) 4 2#8) = true ∧ Memory.wf [(4, 2#8), (5, 1#8)] = true ∧
      ∀ a, Memory.read (Memory.write (Memory.write [] 5 1#8) 4 2#8) a = Memory.read [(4, 2#8), (5, 1#8)] a :=
  ⟨by decide, by decide, fun _ => rfl⟩

theorem witness_LoadPlacesTheImage : (List.replicate 256 (0#8 : Byte)).length ≤ 256 ∧
    256 < (List.replicate 257 (0#8 : Byte)).length := by
  rw [List.length_replicate, List.length_replicate]
  decide

/-- RL2 and RL3: a run stopped after one cycle and resumed for one more. -/
theorem witness_StopThenResumeIsOneRun :
    let s := at_ 0 [0x82#8, 0#8, 8#8, 0x01#8]
    ∃ s1 s2 u, s.status = .running ∧ run (some 1) noCancel 1 s = some s1 ∧ s1.status = .halted .stopped ∧
      resume s1 = .next s2 ∧ run (some 1) noCancel 1 s2 = some u := ⟨_, _, _, rfl, rfl, rfl, rfl, rfl⟩

theorem witness_OnlyAStoppedCoreResumes : (State.reset.halt .normal).status ≠ .halted .stopped := by decide

theorem witness_BinaryLineIsItsByte : [' ', '\t'].all Char.isWhitespace = true ∧
    ([] : List Char).all Char.isWhitespace = true := by decide

/-- Bytes that are the UTF-8 bytes of no text, and bytes that are read as one. -/
theorem witness_ProgramFileIsReadAsUtf8_refused (text : List Char) : text.flatMap utf8Bytes ≠ [0x80#8] := by
  cases text with
  | nil => simp
  | cons c cs =>
    rw [List.flatMap_cons]
    unfold utf8Bytes
    dsimp only
    split_ifs with h
    · intro he
      have hb := congrArg BitVec.toNat (List.cons.inj he).1
      rw [BitVec.toNat_ofNat, Nat.mod_eq_of_lt (by omega)] at hb
      simp only [BitVec.toNat_ofNat] at hb
      omega
    all_goals simp
theorem witness_ProgramFileIsReadAsUtf8_read : textOfBytes [0xC3#8, 0xA9#8] = some [Char.ofNat 0xE9] := by decide

theorem witness_DecimalTextOfAByte : (OutEvent.dec 0#8).text.head? = some '0' := by decide

end Sys2Proof.Tests
end

section
/-! The output channel (spec 10_state.md R24): what a completed instruction appends to it, and the code point of the
character a PRA emits. -/

namespace Sys2Proof.Machine

/-- R24: PRN and PRA append their one event, and no other instruction appends any. -/
theorem Completes.out_cases {s t : State} {i : Instr} (h : Completes s i t) :
    t.out = s.out ∨
    (∃ r : RegIdx, i = .prn (regByte r) ∧ t.out = s.out ++ [.dec (s.getReg r)]) ∨
    (∃ r : RegIdx, i = .pra (regByte r) ∧ t.out = s.out ++ [.chr (s.getReg r)]) := by
  cases i with
  | prn o =>
    obtain ⟨r, rfl, rfl⟩ := h
    exact .inr (.inl ⟨r, rfl, rfl⟩)
  | pra o =>
    obtain ⟨r, rfl, rfl⟩ := h
    exact .inr (.inr ⟨r, rfl, rfl⟩)
  | hlt =>
    left
    obtain rfl := h
    split_ifs <;> rfl
  | ret => exact .inl (by obtain ⟨-, rfl⟩ := h; rfl)
  | iret => exact .inl (by obtain ⟨-, rfl⟩ := h; rfl)
  | push o => exact .inl (by obtain ⟨_, -, -, rfl⟩ := h; rfl)
  | pop o => exact .inl (by obtain ⟨_, -, -, _, rfl, rfl⟩ := h; rfl)
  | call o => exact .inl (by obtain ⟨_, -, -, -, _, rfl, rfl⟩ := h; rfl)
  | jmp o => exact .inl (by obtain ⟨_, -, rfl⟩ := h; rfl)
  | ldi o imm => exact .inl (by obtain ⟨_, -, rfl⟩ := h; rfl)
  | st o1 o2 => exact .inl (by obtain ⟨_, _, -, -, rfl⟩ := h; rfl)
  | add o1 o2 | sub o1 o2 | mul o1 o2 | div o1 o2 =>
    exact .inl (by obtain ⟨_, _, _, -, -, rfl⟩ := h; rfl)

/-- A byte is a code point, below the surrogates, so `Char.ofNat` does not fall back to U+0000. -/
theorem toNat_charOfNat_byte (v : Byte) : (Char.ofNat v.toNat).toNat = v.toNat := by
  have hv : v.toNat.isValidChar := .inl (by have := v.isLt; omega)
  rw [Char.ofNat, dif_pos hv]
  rfl

end Sys2Proof.Machine

open Sys2Proof Sys2Proof.Machine

/-- Settles O37: an error keeps the output of the state the cycle began in (R107), and a completed instruction appends
only as PRN or PRA. -/
theorem outputIsOnlyAppended : Obligations.OutputIsOnlyAppended := by
  unfold Obligations.OutputIsOnlyAppended
  refine ⟨fun _ => rfl, fun v => ⟨rfl, ?_⟩, fun s t h => ?_⟩
  · exact congrArg (fun n => [n]) (toNat_charOfNat_byte v)
  · rcases step_cases h with ⟨-, ⟨e, rfl⟩ | ⟨i, hi, hc⟩⟩
    · exact .inl (State.raise_out s e)
    · rcases hc.out_cases with hout | ⟨r, rfl, hout⟩ | ⟨r, rfl, hout⟩
      · exact .inl hout
      · exact .inr (.inl ⟨r, hi, hout⟩)
      · exact .inr (.inr ⟨r, hi, hout⟩)

end

section
/-! The Decoder's fields (spec 30_encoding.md R49, R50): what a flag bit of the opcode byte says as a number. -/

namespace Sys2Proof.Machine

/-- A bit test in the arithmetic spelling of the Decoder's obligation. -/
theorem getLsbD_eq_div_mod (op : Byte) (n : Nat) : op.getLsbD n = (op.toNat / 2 ^ n % 2 == 1) := by
  rw [BitVec.getLsbD, Nat.testBit_eq_decide_div_mod_eq]
  rfl

end Sys2Proof.Machine

open Sys2Proof Sys2Proof.Machine

/-- Settles O7: a field of `n` bits from bit `k` on is the byte divided by `2 ^ k`, modulo `2 ^ n`; the operand count
is the top field, so its modulus 4 cuts nothing off a byte. -/
theorem decoderReadsTheBitFields : Obligations.DecoderReadsTheBitFields := by
  unfold Obligations.DecoderReadsTheBitFields
  intro op
  refine ⟨?_, getLsbD_eq_div_mod op 5, getLsbD_eq_div_mod op 4, ?_⟩
  · have hcut : op.toNat / 64 < 4 := by have := op.isLt; omega
    calc (decodeShape op).operandCount
        = op.toNat / 64 % 4 := by
          rw [decodeShape, BitVec.extractLsb'_toNat, Nat.shiftRight_eq_div_pow]
      _ = op.toNat / 64 := Nat.mod_eq_of_lt hcut
  · rw [decodeShape, BitVec.extractLsb'_toNat, Nat.shiftRight_zero]

end

section
/-! The cycle (spec 40_cycle.md R68, R70, R75): what step makes of the fetch, that every instruction answers a next state,
and where the operand bytes lie. -/

namespace Sys2Proof.Machine

/-! ### What a cycle answers -/

/-- An error met before the handler is taken at once (R107). -/
theorem step_of_fetch_error {s : State} {e : CoreError} (hr : s.status = .running) (hf : fetch s = .error e) :
    step s = .next (s.raise e) := by
  simp only [step, hr, hf]

theorem step_of_fetch_ok {s : State} {i : Instr} (hr : s.status = .running) (hf : fetch s = .ok i) :
    step s = exec i s := by
  simp only [step, hr, hf]

/-- Every meaning is some handler inside the Executor, advanced by its own mnemonic's byte (R68). -/
theorem exec_eq_runHandler (i : Instr) (s : State) : ∃ handler, exec i s = runHandler i.mnemonic handler s := by
  cases i <;> exact ⟨_, by unfold exec; rfl⟩

theorem exec_answers_next (i : Instr) (s : State) : ∃ t, exec i s = .next t := by
  obtain ⟨handler, heq⟩ := exec_eq_runHandler i s
  rw [heq]
  rcases runHandler_cases i.mnemonic handler s with ⟨t, -, ht⟩ | ⟨e, -, he⟩
  · exact ⟨_, ht⟩
  · exact ⟨_, he⟩

theorem step_answers_next {s : State} (hr : s.status = .running) : ∃ t, step s = .next t := by
  cases hf : fetch s with
  | error e => exact ⟨_, step_of_fetch_error hr hf⟩
  | ok i =>
    rw [step_of_fetch_ok hr hf]
    exact exec_answers_next i s

/-- HLT alone, of the instructions that meet no error, changes the run status (R99). -/
theorem Completes.status_cases {s t : State} {i : Instr} (h : Completes s i t) :
    (i = .hlt ∧ t.status = .halted .normal) ∨ t.status = s.status := by
  cases i with
  | hlt =>
    obtain rfl := h
    exact .inl ⟨rfl, by split_ifs <;> rfl⟩
  | ret => exact .inr (by obtain ⟨-, rfl⟩ := h; rfl)
  | iret => exact .inr (by obtain ⟨-, rfl⟩ := h; rfl)
  | push o => exact .inr (by obtain ⟨_, -, -, rfl⟩ := h; rfl)
  | pop o => exact .inr (by obtain ⟨_, -, -, _, rfl, rfl⟩ := h; rfl)
  | prn o | pra o | jmp o | ldi o imm => exact .inr (by obtain ⟨_, -, rfl⟩ := h; rfl)
  | call o => exact .inr (by obtain ⟨_, -, -, -, _, rfl, rfl⟩ := h; rfl)
  | st o1 o2 => exact .inr (by obtain ⟨_, _, -, -, rfl⟩ := h; rfl)
  | add o1 o2 | sub o1 o2 | mul o1 o2 | div o1 o2 =>
    exact .inr (by obtain ⟨_, _, _, -, -, rfl⟩ := h; rfl)

/-- The byte at pc selects the mnemonic of the instruction fetched. -/
theorem mnemonicOf_of_fetch {s : State} {i : Instr} (hf : fetch s = .ok i) :
    mnemonicOf (Memory.read s.mem s.pc) = some i.mnemonic := by
  obtain ⟨-, hop, -⟩ := fetch_ok hf
  rw [hop, mnemonicOf_opcode]

theorem eq_iret_of_mnemonic {i : Instr} (h : i.mnemonic = .iret) : i = .iret := by
  cases i with
  | iret => rfl
  | _ => cases h

/-- An instruction completes only under a byte with a handler: one of the table, and IRET's only where it is defined
(R71, R100). -/
theorem Completes.handler_exists {s t : State} {i : Instr} (hf : fetch s = .ok i) (h : Completes s i t) :
    ¬ (mnemonicOf (Memory.read s.mem s.pc) = none ∨
      (mnemonicOf (Memory.read s.mem s.pc) = some .iret ∧ s.config.iretMode = .omitted)) := by
  rw [mnemonicOf_of_fetch hf]
  rintro (hnone | ⟨hiret, homitted⟩)
  · cases hnone
  · obtain rfl := eq_iret_of_mnemonic (Option.some.inj hiret)
    obtain ⟨hnoop, -⟩ := h
    rw [homitted] at hnoop
    cases hnoop

/-! ### The operand bytes -/

/-- The operand count in the arithmetic spelling of R49. -/
theorem operandCount_eq_div (op : Byte) : (decodeShape op).operandCount = op.toNat / 64 :=
  (decoderReadsTheBitFields op).1

/-- The bytes of consecutive cells, by their offsets. -/
theorem map_read_range' (m : Memory) (a n : Nat) :
    (List.range' a n).map (Memory.read m) = (List.range n).map fun k => Memory.read m (a + k) := by
  rw [List.range'_eq_map_range, List.map_map]
  rfl

/-- Operand bytes that reach past the last cell: the violation is at the first address outside memory. -/
theorem fetch_operands_outside {s : State} (hpc : s.pc < memSize)
    (hout : memSize ≤ s.pc + (decodeShape (Memory.read s.mem s.pc)).operandCount) :
    fetch s = .error (.memoryAccessViolation memSize) := by
  rw [fetch_eq]
  dsimp only
  rw [if_neg (by omega), if_pos (by omega)]

/-- Operand bytes within memory: the fetch is the dispatch of exactly these bytes. -/
theorem fetch_eq_ok_iff_dispatch {s : State} {i : Instr}
    (hin : s.pc + (decodeShape (Memory.read s.mem s.pc)).operandCount < memSize) :
    fetch s = .ok i ↔ dispatch (Memory.read s.mem s.pc)
      ((List.range' (s.pc + 1) (decodeShape (Memory.read s.mem s.pc)).operandCount).map (Memory.read s.mem)) =
        some i := by
  rw [fetch_eq]
  dsimp only
  rw [if_neg (by omega), if_neg (by omega)]
  split
  · next hnone => simp [hnone]
  · next j hj => simp [hj]

end Sys2Proof.Machine

open Sys2Proof Sys2Proof.Machine

/-- Settles O11: every meaning is a handler inside the Executor, which answers a next state; an instruction that
completes keeps the core running or is HLT, and completes only under a byte that has a handler. -/
theorem cycleIsTotal : Obligations.CycleIsTotal := by
  unfold Obligations.CycleIsTotal
  intro s hr
  obtain ⟨t, ht⟩ := step_answers_next hr
  refine ⟨t, ht, ?_⟩
  rcases step_cases ht with ⟨-, ⟨e, rfl⟩ | ⟨i, hf, hc⟩⟩
  · exact ⟨.inr (.inr ⟨e, s.raise_status e⟩), fun _ => ⟨e, s.raise_status e⟩⟩
  · refine ⟨?_, fun hillegal => absurd hillegal (hc.handler_exists hf)⟩
    rcases hc.status_cases with ⟨-, hnormal⟩ | hsame
    · exact .inr (.inl hnormal)
    · exact .inl (hsame.trans hr)

/-- Settles O14: the first address outside memory is 256, where the fetch faults, for a defined opcode byte and any
other. -/
theorem operandFetchIsBoundsChecked : Obligations.OperandFetchIsBoundsChecked := by
  unfold Obligations.OperandFetchIsBoundsChecked
  intro s hr hpc
  dsimp only
  rw [← operandCount_eq_div, ← map_read_range']
  refine ⟨fun i hi1 hic hout hfirst => ?_, fun hin => ⟨?_, fun i => fetch_eq_ok_iff_dispatch hin⟩⟩
  · have hlast : s.pc + (i - 1) < 256 := by
      by_cases hi : i = 1
      · simpa [hi] using hpc
      · exact hfirst (i - 1) (by omega) (by omega)
    have hreach : 256 ≤ s.pc + (decodeShape (Memory.read s.mem s.pc)).operandCount := by omega
    rw [show s.pc + i = 256 by omega]
    exact step_of_fetch_error hr (fetch_operands_outside hpc hreach)
  · have hfit : s.pc + 1 + (decodeShape (Memory.read s.mem s.pc)).operandCount ≤ 256 := by omega
    rw [readBytes_eq, if_pos (.inr hfit)]

end

section
/-! The ALU instructions on registers (spec 41_alu.md R79 to R83): the number each function answers, and the state a cycle
leaves with it. -/

namespace Sys2Proof.Machine

/-! ### Results -/

/-- Narrowing a natural number is the remainder modulo the register width (R8, R83). -/
theorem trunc8_natCast_toNat (n : Nat) : (trunc8 n).toNat = n % 256 := by
  have := trunc8_toNat n
  omega

theorem aluAdd_ok (x y : Byte) : ∃ v, aluAdd x y = .ok v ∧ v.toNat = (x.toNat + y.toNat) % 256 :=
  ⟨_, rfl, trunc8_natCast_toNat (x.toNat + y.toNat)⟩

/-- A negative difference wraps upward by the register width. -/
theorem aluSub_ok (x y : Byte) : ∃ v, aluSub x y = .ok v ∧ v.toNat = (x.toNat + 256 - y.toNat) % 256 := by
  refine ⟨_, rfl, ?_⟩
  have hy := y.isLt
  have hv := trunc8_toNat ((x.toNat : Int) - y.toNat)
  omega

theorem aluMul_ok (x y : Byte) : ∃ v, aluMul x y = .ok v ∧ v.toNat = x.toNat * y.toNat % 256 :=
  ⟨_, rfl, by rw [← Int.natCast_mul, trunc8_natCast_toNat]⟩

/-- A quotient of bytes is a byte, so nothing wraps. -/
theorem aluDiv_ok {x y : Byte} (hy : y.toNat ≠ 0) : ∃ v, aluDiv x y = .ok v ∧ v.toNat = x.toNat / y.toNat := by
  have hy0 : y ≠ 0#8 := fun h => hy (by rw [h]; rfl)
  refine ⟨_, if_neg hy0, trunc8_of_lt ?_⟩
  exact (Nat.div_le_self x.toNat y.toNat).trans_lt x.isLt

theorem aluDiv_zero {x y : Byte} (hy : y.toNat = 0) : aluDiv x y = .error .divisionByZero :=
  if_pos (BitVec.eq_of_toNat_eq hy)

/-! ### The cycle -/

variable {a b : RegIdx} {s : State} {m : Mnemonic} {f : Byte → Byte → Except CoreError Byte}

/-- What an ALU instruction that completes does (R83): the number `n` into register `a`, pc past the three bytes, and
nothing else. -/
def WritesAluResult (a : RegIdx) (s t : State) (n : Nat) : Prop :=
  (t.getReg a).toNat = n ∧ KeepsRegs s t [a] ∧ t = { s with regs := t.regs, pc := s.pc + 3 }

theorem writesAluResult_setReg (a : RegIdx) (s : State) (v : Byte) :
    WritesAluResult a s ((s.setReg a v).setPc (s.pc + 3)) v.toNat := by
  refine ⟨?value, fun r hr => ?kept, rfl⟩
  case value => simp
  case kept =>
    rw [State.setPc_getReg]
    exact State.getReg_setReg_of_ne s (by simpa using hr) v

/-- The function's answer is written to the first register, whether or not it is also the second. -/
theorem runHandler_alu_ok {n : Nat} (hr : s.status = .running)
    (hp : (decodeShape m.opcode).setsPc = false) (hn : (decodeShape m.opcode).operandCount = 2)
    (hf : ∃ v, f (s.getReg a) (s.getReg b) = .ok v ∧ v.toNat = n) :
    ∃ t, runHandler m (aluHandler f (regByte a) (regByte b)) s = .next t ∧ WritesAluResult a s t n := by
  obtain ⟨v, hv, rfl⟩ := hf
  refine ⟨_, ?_, writesAluResult_setReg a s v⟩
  rw [runHandler_ok (by rw [aluHandler_regByte, hv]), afterHandler_eq (by simpa using hr) hp hn]

theorem runHandler_alu_error {e : CoreError} (hf : f (s.getReg a) (s.getReg b) = .error e) :
    runHandler m (aluHandler f (regByte a) (regByte b)) s = .next (s.raise e) :=
  runHandler_error (by rw [aluHandler_regByte, hf])

end Sys2Proof.Machine

open Sys2Proof Sys2Proof.Machine

/-- Settles O20: the four instructions are one handler around four functions, so each clause is the number its function
answers; only DIV's can be an error. -/
theorem aluResults : Obligations.AluResults := by
  unfold Obligations.AluResults
  intro a b s hr
  refine ⟨?add, ?sub, ?mul, fun hy => ?div, fun hy => ?divByZero⟩
  case add => exact runHandler_alu_ok hr (setsPc_opcode .add) (operandCount_opcode .add) (aluAdd_ok _ _)
  case sub => exact runHandler_alu_ok hr (setsPc_opcode .sub) (operandCount_opcode .sub) (aluSub_ok _ _)
  case mul => exact runHandler_alu_ok hr (setsPc_opcode .mul) (operandCount_opcode .mul) (aluMul_ok _ _)
  case div => exact runHandler_alu_ok hr (setsPc_opcode .div) (operandCount_opcode .div) (aluDiv_ok hy)
  case divByZero => exact runHandler_alu_error (aluDiv_zero hy)

end

section
/-! The construction state (spec 70_reset_and_hazards.md R119): what a memory with no cell listed reads, and what each
register holds. -/

namespace Sys2Proof.Machine

/-- R17: a cell that is not listed holds zero, so the memory with none listed is zero at every address. -/
@[simp] theorem Memory.read_nil (a : Nat) : Memory.read [] a = 0#8 := rfl

/-- R20: the register file at construction is zero but for the stack pointer, whatever the parameters are. -/
theorem State.construct_getReg (c : Config) (r : RegIdx) :
    (State.construct c).getReg r = if r = sp then spInit else 0#8 := by
  simp only [State.getReg, State.construct, sp, Fin.getElem_fin, Vector.getElem_set, Vector.getElem_replicate,
    Fin.ext_iff, eq_comm]
  rfl

end Sys2Proof.Machine

open Sys2Proof Sys2Proof.Machine

/-- Settles O1: reset is construction at the reference parameters; no memory cell is listed there, and SP is the one
register that is not zero. -/
theorem resetIsTheConstructionState : Obligations.ResetIsTheConstructionState := by
  unfold Obligations.ResetIsTheConstructionState
  refine ⟨fun a _ => ?memory, fun r hr => ?registers, ?stackPointer, rfl, rfl, rfl⟩
  case memory => exact Memory.read_nil a
  case registers => exact (State.construct_getReg referenceConfig r).trans (if_neg hr)
  case stackPointer => exact (State.construct_getReg referenceConfig 7).trans (if_pos rfl)

end

section
/-! Encoding (spec 30_encoding.md): the decoder and the encoder are inverse to each other, and the fetch reads what the
decoder would read of the bytes at pc. -/

namespace Sys2Proof.Machine

/-- What is decoded is exactly what was encoded, with whatever follows it left over (R48, R53). -/
theorem decode_eq_ok_iff {bytes rest : List Byte} {i : Instr} :
    decode bytes = .ok (i, rest) ↔ encode i ++ rest = bytes := by
  constructor
  · intro h
    cases bytes with
    | nil => cases h
    | cons op tail =>
      simp only [decode] at h
      split_ifs at h with hshort
      split at h
      · cases h
      · next j hj =>
        cases h
        obtain ⟨rfl, hos⟩ := dispatch_eq_some hj (List.length_take_of_le (Nat.le_of_not_lt hshort))
        rw [encode, ← hos, List.cons_append, List.take_append_drop]
  · rintro rfl
    have hfit : ¬ (i.operands ++ rest).length < i.operands.length := by simp
    simp only [encode, List.cons_append, decode, ← operands_length, if_neg hfit, List.take_left, List.drop_left,
      dispatch_encoded]

/-- The bytes from an address of memory on are its own and those from the next address on. -/
theorem bytesFrom_of_lt (m : Memory) {a : Nat} (h : a < memSize) :
    bytesFrom m a = Memory.read m a :: bytesFrom m (a + 1) := by
  have hsplit : memSize - a = memSize - (a + 1) + 1 := by omega
  rw [bytesFrom, hsplit, List.range'_succ, List.map_cons, bytesFrom]

/-- The first bytes from an address on are those of the cells. -/
theorem take_bytesFrom (m : Memory) {a n : Nat} (h : n ≤ memSize - a) :
    (bytesFrom m a).take n = (List.range' a n).map (Memory.read m) := by
  rw [bytesFrom, ← List.map_take, List.take_range'_of_length_ge h]

/-- R68, R70: the instruction that the bytes at pc decode to is the one fetched. -/
theorem fetch_of_decode {s : State} {i : Instr} {rest : List Byte}
    (h : decode (bytesFrom s.mem s.pc) = .ok (i, rest)) : fetch s = .ok i := by
  have hbytes := decode_eq_ok_iff.mp h
  have hlen : (encode i).length + rest.length = memSize - s.pc := by
    simpa [bytesFrom] using congrArg List.length hbytes
  simp only [encode, List.length_cons] at hlen
  rw [bytesFrom_of_lt s.mem (by omega), encode, List.cons_append] at hbytes
  obtain ⟨hop, hos⟩ := List.cons.inj hbytes
  refine fetch_of_bytes ?_ hop.symm ?_
  · simp only [encode, List.length_cons]
    omega
  · rw [← take_bytesFrom s.mem (by omega), ← hos, List.take_left]

/-- The is_alu bit of each opcode byte (R61). -/
theorem isAlu_opcode (m : Mnemonic) : (decodeShape m.opcode).isAlu =
    match m with
    | .add | .sub | .mul | .div => true
    | .hlt | .ret | .iret | .push | .pop | .prn | .pra | .call | .jmp | .ldi | .st => false := by
  cases m <;> decide

end Sys2Proof.Machine

open Sys2Proof Sys2Proof.Machine

/-- Settles O4: the opcode byte's operand count cuts the bytes where the instruction ends, and the table gives the
instruction back. -/
theorem decodeOfEncode : Obligations.DecodeOfEncode := by
  unfold Obligations.DecodeOfEncode
  exact fun i rest => decode_eq_ok_iff.mpr rfl

/-- Settles O5: a dispatch answers only under its own opcode byte and with the operands it was given. -/
theorem encodeOfDecode : Obligations.EncodeOfDecode := by
  unfold Obligations.EncodeOfDecode
  exact fun bytes rest i => decode_eq_ok_iff.mp

/-- Settles O6: the first six words are encodings, so they decode by O4. -/
theorem sampleWordsDecode : Obligations.SampleWordsDecode := by
  unfold Obligations.SampleWordsDecode
  refine ⟨?ldi, ?div, ?call, ?st, ?ret, ?hlt, ?unknown, ?cut⟩
  case ldi => exact decodeOfEncode (.ldi 0#8 8#8) []
  case div => exact decodeOfEncode (.div 5#8 6#8) []
  case call => exact decodeOfEncode (.call 1#8) [0xFF#8]
  case st => exact decodeOfEncode (.st 2#8 3#8) []
  case ret => exact decodeOfEncode .ret []
  case hlt => exact decodeOfEncode .hlt []
  case unknown => decide
  case cut => decide

/-- Settles O8: each field of the fifteen bytes is a function of the mnemonic, read off its lemma. -/
theorem opcodesMeetTheStructuralConstraints : Obligations.OpcodesMeetTheStructuralConstraints := by
  unfold Obligations.OpcodesMeetTheStructuralConstraints
  refine ⟨fun m => ?alu, fun m => ?pc, fun m => ?none, fun m => ?one, fun m => ?two, opcode_injective⟩
  case alu => rw [isAlu_opcode]; cases m <;> decide
  case pc => rw [setsPc_opcode]; cases m <;> decide
  all_goals rw [operandCount_opcode]; cases m <;> decide

/-- Settles O9: the fetch reads the instruction the bytes at pc decode to, and a step of the running core is exec of what
it fetches. -/
theorem stepRunsTheDecodedInstruction : Obligations.StepRunsTheDecodedInstruction := by
  unfold Obligations.StepRunsTheDecodedInstruction
  exact fun s i rest hr hdecode => step_of_fetch_ok hr (fetch_of_decode hdecode)

end

section
/-! Memory (spec 20_memory.md R40, R44): reads after writes, the canonical form as a form of its reads, and images. -/

namespace Sys2Proof.Machine

/-- R40: a write changes its cell and no other. -/
theorem Memory.read_write (m : Memory) (a x : Nat) (v : Byte) :
    Memory.read (Memory.write m a v) x = if x = a then v else Memory.read m x := by
  simp only [Memory.write]
  split_ifs with hzero hx hx
  · rw [Memory.read_filter, if_pos hx, hzero]
  · rw [Memory.read_filter, if_neg hx]
  · rw [Memory.read_insert _ _ _ _ (Memory.not_mem_filter m a), if_pos hx]
  · rw [Memory.read_insert _ _ _ _ (Memory.not_mem_filter m a), if_neg hx, Memory.read_filter, if_neg hx]

@[simp] theorem Memory.read_write_self (m : Memory) (a : Nat) (v : Byte) :
    Memory.read (Memory.write m a v) a = v := by
  rw [Memory.read_write, if_pos rfl]

theorem Memory.read_write_of_ne (m : Memory) {a x : Nat} (h : x ≠ a) (v : Byte) :
    Memory.read (Memory.write m a v) x = Memory.read m x := by
  rw [Memory.read_write, if_neg h]

/-- A write removes the cell's entry and, for a byte other than zero, puts one in. -/
theorem Memory.wf_write {m : Memory} {a : Nat} {v : Byte} (h : Memory.wf m = true) (ha : a < memSize) :
    Memory.wf (Memory.write m a v) = true := by
  have hothers := Memory.wfFrom_filter (fun c => c.1 != a) h
  simp only [Memory.write]
  split_ifs with hzero
  · exact hothers
  · exact Memory.wfFrom_insert hothers (Nat.zero_le a) ha hzero (Memory.not_mem_filter m a)

theorem Memory.wfFrom_cons {low a : Nat} {v : Byte} {rest : Memory} :
    Memory.wfFrom low ((a, v) :: rest) = true ↔
      low ≤ a ∧ a < memSize ∧ v ≠ unwrittenByte ∧ Memory.wfFrom (a + 1) rest = true := by
  simp only [Memory.wfFrom, Bool.and_eq_true, decide_eq_true_eq, and_assoc]

theorem Memory.read_cons_self (a : Nat) (v : Byte) (rest : Memory) : Memory.read ((a, v) :: rest) a = v :=
  if_pos rfl

theorem Memory.read_cons_of_ne {a x : Nat} (h : a ≠ x) (v : Byte) (rest : Memory) :
    Memory.read ((a, v) :: rest) x = Memory.read rest x :=
  if_neg h

/-- A memory canonical from an address up lists no lower cell. -/
theorem Memory.read_below {low x : Nat} {m : Memory} (h : Memory.wfFrom low m = true) (hx : x < low) :
    Memory.read m x = unwrittenByte := by
  induction m generalizing low with
  | nil => rfl
  | cons c rest ih =>
    obtain ⟨a, v⟩ := c
    obtain ⟨hlow, -, -, hrest⟩ := Memory.wfFrom_cons.mp h
    rw [Memory.read_cons_of_ne (by omega)]
    exact ih hrest (by omega)

/-- Cells that both memories list in front hold the same byte at the same address, or one reads a byte other than zero
where the other lists nothing. -/
theorem Memory.ext_of_wfFrom {low low' : Nat} {m m' : Memory} (h : Memory.wfFrom low m = true)
    (h' : Memory.wfFrom low' m' = true) (heq : ∀ x, Memory.read m x = Memory.read m' x) : m = m' := by
  induction m generalizing low low' m' with
  | nil =>
    cases m' with
    | nil => rfl
    | cons c' rest' =>
      obtain ⟨a', v'⟩ := c'
      obtain ⟨-, -, hv', -⟩ := Memory.wfFrom_cons.mp h'
      exact absurd ((Memory.read_cons_self a' v' rest').symm.trans (heq a').symm) hv'
  | cons c rest ih =>
    obtain ⟨a, v⟩ := c
    obtain ⟨-, hlt, hv, hrest⟩ := Memory.wfFrom_cons.mp h
    cases m' with
    | nil => exact absurd ((Memory.read_cons_self a v rest).symm.trans (heq a)) hv
    | cons c' rest' =>
      obtain ⟨a', v'⟩ := c'
      obtain ⟨-, hlt', hv', hrest'⟩ := Memory.wfFrom_cons.mp h'
      have hself := Memory.read_cons_self a v rest
      have hself' := Memory.read_cons_self a' v' rest'
      obtain hlow | rfl | hhigh := Nat.lt_trichotomy a a'
      · have hbelow := Memory.read_below (Memory.wfFrom_cons.mpr ⟨Nat.le_refl a', hlt', hv', hrest'⟩) hlow
        exact absurd (hself.symm.trans ((heq a).trans hbelow)) hv
      · obtain rfl : v = v' := hself.symm.trans ((heq a).trans hself')
        refine congrArg _ (ih hrest hrest' fun x => ?_)
        by_cases hx : x < a + 1
        · rw [Memory.read_below hrest hx, Memory.read_below hrest' hx]
        · have hrestEq := heq x
          rwa [Memory.read_cons_of_ne (by omega), Memory.read_cons_of_ne (by omega)] at hrestEq
      · have hbelow := Memory.read_below (Memory.wfFrom_cons.mpr ⟨Nat.le_refl a, hlt, hv, hrest⟩) hhigh
        exact absurd (hself'.symm.trans ((heq a').symm.trans hbelow)) hv'

/-! ### Images -/

theorem Memory.read_writeBytes_outside (m : Memory) {a x : Nat} (vs : List Byte) (h : x < a ∨ a + vs.length ≤ x) :
    Memory.read (Memory.writeBytes m a vs) x = Memory.read m x := by
  induction vs generalizing m a with
  | nil => rfl
  | cons v vs ih =>
    simp only [List.length_cons] at h
    rw [Memory.writeBytes, ih _ (by omega), Memory.read_write_of_ne m (by omega)]

theorem Memory.read_writeBytes_inside (m : Memory) (a : Nat) (vs : List Byte) {i : Nat} (h : i < vs.length) :
    Memory.read (Memory.writeBytes m a vs) (a + i) = vs[i] := by
  induction vs generalizing m a i with
  | nil => cases h
  | cons v vs ih =>
    rw [Memory.writeBytes]
    cases i with
    | zero => rw [Memory.read_writeBytes_outside _ vs (by omega), Nat.add_zero, Memory.read_write_self]; rfl
    | succ i =>
      rw [show a + (i + 1) = a + 1 + i by omega]
      exact ih _ _ (Nat.lt_of_succ_lt_succ h)

end Sys2Proof.Machine

open Sys2Proof Sys2Proof.Machine

/-- Settles O41: a write puts the byte in, or for zero takes the cell's entry out, which reads the same. -/
theorem readAfterWrite : Obligations.ReadAfterWrite := by
  unfold Obligations.ReadAfterWrite
  exact Memory.read_write

/-- Settles O42: the entries a write keeps are canonical, and the one it may put in lies below 256. -/
theorem writeKeepsTheCanonicalForm : Obligations.WriteKeepsTheCanonicalForm := by
  unfold Obligations.WriteKeepsTheCanonicalForm
  exact fun m a v h ha => Memory.wf_write h ha

/-- Settles O43: both lists begin with the lowest cell that does not read zero. -/
theorem equalMemoriesAreEqualData : Obligations.EqualMemoriesAreEqualData := by
  unfold Obligations.EqualMemoriesAreEqualData
  exact fun m m' h h' heq => Memory.ext_of_wfFrom h h' heq

/-- Settles O44: an image written from address 0 on is read back at its own cells, and no other cell changes. -/
theorem loadPlacesTheImage : Obligations.LoadPlacesTheImage := by
  unfold Obligations.LoadPlacesTheImage
  refine fun image s => ⟨fun hfits => ⟨_, if_pos hfits, fun i h => ?inside, fun a ha => ?outside, rfl⟩, fun hlong => ?_⟩
  case inside => simpa using Memory.read_writeBytes_inside s.mem 0 image h
  case outside => exact Memory.read_writeBytes_outside s.mem image (by omega)
  · exact if_neg (Nat.not_le.mpr hlong)

/-- Settles O2: whatever the parameters are, no cell is listed at construction, and pc is 0. -/
theorem constructionMeetsInvariant : Obligations.ConstructionMeetsInvariant := by
  unfold Obligations.ConstructionMeetsInvariant
  exact fun c => ⟨rfl, Nat.zero_le memSize⟩

end

section
/-! Errors (spec 60_exceptions.md): which error a fetch, an instruction and a cycle take. -/

namespace Sys2Proof.Machine

/-! ### The fetch -/

/-- R69: the opcode fetch is checked before anything else. -/
theorem fetch_opcode_outside {s : State} (hpc : memSize ≤ s.pc) :
    fetch s = .error (.memoryAccessViolation s.pc) := by
  rw [fetch_eq]
  exact if_pos hpc

/-- The fifteen bytes of R57 as numbers. -/
theorem opcode_mem_table (m : Mnemonic) : m.opcode.toNat ∈
    [0x01, 0x11, 0x13, 0x45, 0x46, 0x47, 0x48, 0x50, 0x54, 0x82, 0x84, 0xA0, 0xA1, 0xA2, 0xA3] := by
  cases m <;> decide

/-- R58, R71: a byte of no instruction, its operand bytes within memory. -/
theorem fetch_unknown {s : State} (hunknown : mnemonicOf (Memory.read s.mem s.pc) = none)
    (hin : s.pc + (decodeShape (Memory.read s.mem s.pc)).operandCount < memSize) :
    fetch s = .error (.unknownOpcode (Memory.read s.mem s.pc) s.pc) := by
  rw [fetch_eq]
  dsimp only
  rw [if_neg (by omega), if_neg (by omega), dispatch, hunknown]
  rfl

/-- A mnemonic with as many operand bytes as its opcode byte says is an instruction. -/
theorem withOperands_answers (m : Mnemonic) {os : List Byte} (h : os.length = (decodeShape m.opcode).operandCount) :
    ∃ i, m.withOperands os = some i := by
  rw [operandCount_opcode] at h
  cases m with
  | hlt | ret | iret => exact ⟨_, rfl⟩
  | push | pop | prn | pra | call | jmp =>
    obtain ⟨o, rfl⟩ := List.length_eq_one_iff.mp h
    exact ⟨_, rfl⟩
  | ldi | st | add | sub | mul | div =>
    obtain ⟨o1, o2, rfl⟩ := List.length_eq_two.mp h
    exact ⟨_, rfl⟩

/-- The fetch of a byte of the table errs only by where its bytes lie. -/
theorem fetch_known {s : State} {m : Mnemonic} (hknown : mnemonicOf (Memory.read s.mem s.pc) = some m)
    (hin : s.pc + (decodeShape (Memory.read s.mem s.pc)).operandCount < memSize) : ∃ i, fetch s = .ok i := by
  obtain ⟨i, hi⟩ := withOperands_answers m
    (os := (List.range' (s.pc + 1) (decodeShape (Memory.read s.mem s.pc)).operandCount).map (Memory.read s.mem))
    (by rw [List.length_map, List.length_range', mnemonicOf_eq_some hknown])
  exact ⟨i, (fetch_eq_ok_iff_dispatch hin).mpr (by rw [dispatch, hknown, Option.bind_some, hi])⟩

/-- The fetch takes the first three errors of R104 in its order. -/
theorem firstError_of_fetch_error {s : State} {e : CoreError} (h : fetch s = .error e) : firstError s = some e := by
  unfold firstError
  dsimp only
  rw [← operandCount_eq_div]
  by_cases hpc : memSize ≤ s.pc
  · rw [fetch_opcode_outside hpc] at h
    cases h
    exact if_pos hpc
  · by_cases hout : memSize ≤ s.pc + (decodeShape (Memory.read s.mem s.pc)).operandCount
    · rw [fetch_operands_outside (by omega) hout] at h
      cases h
      exact (if_neg hpc).trans (if_pos hout)
    · refine (if_neg hpc).trans ((if_neg hout).trans ?_)
      cases hm : mnemonicOf (Memory.read s.mem s.pc) with
      | none =>
        rw [fetch_unknown hm (by omega)] at h
        cases h
        rfl
      | some m =>
        obtain ⟨i, hi⟩ := fetch_known hm (by omega)
        rw [hi] at h
        cases h

/-! ### Register operands -/

/-- An operand byte that names no register (R53). -/
def badRegister (o : Byte) : Bool := decide (8 ≤ o.toNat)

theorem badRegister_regByte (r : RegIdx) : badRegister (regByte r) = false := by
  have := r.isLt
  simp only [badRegister, regByte_toNat, decide_eq_false_iff_not]
  omega

theorem reg_bad (s : State) {o : Byte} (h : badRegister o = true) : reg s o = .error (.invalidRegister o s.pc) := by
  rcases reg_cases s o with ⟨r, rfl⟩ | ⟨-, herr⟩
  · rw [badRegister_regByte] at h
    cases h
  · exact herr

theorem eq_regByte_of_not_bad {o : Byte} (h : ¬ badRegister o = true) : ∃ r, o = regByte r := by
  rcases reg_cases State.reset o with hnamed | ⟨hbad, -⟩
  · exact hnamed
  · exact absurd (decide_eq_true hbad) h

theorem find_badRegister_one (r : Byte) :
    [r].find? badRegister = if 8 ≤ r.toNat then some r else none := by
  simp [badRegister]

theorem find_badRegister_two (a b : Byte) :
    [a, b].find? badRegister = if 8 ≤ a.toNat then some a else if 8 ≤ b.toNat then some b else none := by
  rw [List.find?_cons, find_badRegister_one]
  by_cases ha : 8 ≤ a.toNat <;> simp [badRegister, ha]

/-- Of one operand byte or two, the first bad one is the error. -/
theorem reg_of_find (s : State) {o r : Byte} (h : [r].find? badRegister = some o) :
    reg s r = .error (.invalidRegister o s.pc) := by
  obtain rfl : r = o := List.mem_singleton.mp (List.mem_of_find?_eq_some h) |>.symm
  exact reg_bad s (List.find?_some h)

theorem regPair_of_find (s : State) {o a b : Byte} (h : [a, b].find? badRegister = some o) :
    regPair s a b = .error (.invalidRegister o s.pc) := by
  by_cases ha : badRegister a = true
  · rw [List.find?_cons_of_pos ha] at h
    cases h
    simp only [regPair, reg_bad s ha, bind, Except.bind]
  · rw [List.find?_cons_of_neg ha] at h
    obtain ⟨r, rfl⟩ := eq_regByte_of_not_bad ha
    simp only [regPair, reg_regByte, reg_of_find s h, bind, Except.bind]

/-- R53, R103: the first register operand that is no register is InvalidRegister, whatever the instruction. -/
theorem exec_bad_register {i : Instr} {o : Byte} (s : State) (h : i.registerOperands.find? badRegister = some o) :
    exec i s = .next (s.raise (.invalidRegister o s.pc)) := by
  cases i with
  | hlt | ret | iret => cases h
  | push r | pop r | prn r | pra r | call r | jmp r | ldi r imm =>
    unfold exec
    exact runHandler_reg_error (reg_of_find s h)
  | st a b | add a b | sub a b | mul a b | div a b =>
    unfold exec
    exact runHandler_regPair_error (regPair_of_find s h)

/-- Where no operand byte is bad, each one names a register. -/
theorem registerOperand_named {i : Instr} {o : Byte} (h : i.registerOperands.find? badRegister = none)
    (ho : o ∈ i.registerOperands) : ∃ r, o = regByte r :=
  eq_regByte_of_not_bad (List.find?_eq_none.mp h o ho)

/-! ### The error of an instruction -/

/-- The value DIV divides by, in a state its instruction is fetched in; for any other instruction it does not matter. -/
def divisor (s : State) (i : Instr) : Byte := s.getReg (Fin.ofNat 8 (i.operands.getD 1 0#8).toNat)

/-- The error of an instruction, if any: the last checks of R104, on the instruction in place of the bytes in memory. -/
def execError (s : State) (i : Instr) : Option CoreError :=
  if i = .iret ∧ s.config.iretMode = .omitted then some (.unknownOpcode Mnemonic.iret.opcode s.pc)
  else
    match i.registerOperands.find? badRegister with
    | some o => some (.invalidRegister o s.pc)
    | none => handlerError s (divisor s i) i.mnemonic

theorem execError_of_ne_iret (s : State) {i : Instr} (h : i ≠ .iret) : execError s i =
    match i.registerOperands.find? badRegister with
    | some o => some (.invalidRegister o s.pc)
    | none => handlerError s (divisor s i) i.mnemonic :=
  if_neg fun hiret => h hiret.1

/-- Once an instruction is fetched, the errors left in R104's order are its own. -/
theorem firstError_of_fetch_ok {s : State} {i : Instr} (h : fetch s = .ok i) : firstError s = execError s i := by
  obtain ⟨hfit, hop, hos⟩ := fetch_ok h
  have hlen := operands_length i
  simp only [encode, List.length_cons] at hfit
  have hpc : ¬ memSize ≤ s.pc := by omega
  have hin : ¬ memSize ≤ s.pc + (decodeShape i.mnemonic.opcode).operandCount := by omega
  unfold firstError
  dsimp only
  rw [hop, ← operandCount_eq_div, mnemonicOf_opcode]
  refine (if_neg hpc).trans ((if_neg hin).trans ?_)
  cases i with
  | hlt | ret => rfl
  | iret =>
    simp only [Instr.mnemonic, registerPositions, Bool.false_eq_true, true_and, false_and, if_false, execError]
    rfl
  | push r | pop r | prn r | pra r | call r | jmp r | ldi r imm =>
    obtain rfl : r = Memory.read s.mem (s.pc + 1) := by
      rw [Instr.operands, List.length_cons, List.range'_succ, List.map_cons] at hos
      exact (List.cons.inj hos).1
    rw [execError_of_ne_iret s (by simp), Instr.registerOperands, find_badRegister_one]
    simp only [Instr.mnemonic, registerPositions, reduceCtorEq, Bool.false_eq_true, true_and, false_and, if_false]
    split_ifs <;> rfl
  | st a b | add a b | sub a b | mul a b | div a b =>
    obtain ⟨rfl, rfl⟩ : a = Memory.read s.mem (s.pc + 1) ∧ b = Memory.read s.mem (s.pc + 2) := by
      simpa [Instr.operands, List.range'] using hos
    rw [execError_of_ne_iret s (by simp), Instr.registerOperands, find_badRegister_two]
    simp only [Instr.mnemonic, registerPositions, reduceCtorEq, true_and, false_and, if_false]
    split_ifs <;> rfl

/-! ### What a cycle takes -/

/-- An outcome of a cycle that began in `s` and meets the given error, or, for none, ends without an error. -/
def Takes (s : State) : Option CoreError → Result → Prop
  | some e, o => o = .next (s.raise e)
  | none, o => ∃ t, o = .next t ∧ ∀ e, t.status ≠ .halted (.fault e)

/-- What is taken is determined by the outcome. -/
theorem Takes.eq_raise_iff {s : State} {found : Option CoreError} {o : Result} (h : Takes s found o) (e : CoreError) :
    o = .next (s.raise e) ↔ found = some e := by
  cases found with
  | some e' =>
    obtain rfl := h
    simp only [Host.Outcome.next.injEq, Option.some.injEq]
    exact ⟨s.raise_injective, congrArg s.raise⟩
  | none =>
    obtain ⟨t, rfl, hstatus⟩ := h
    refine ⟨fun heq => ?_, fun hsome => by cases hsome⟩
    cases heq
    exact absurd (s.raise_status e) (hstatus e)

theorem takes_none {s t : State} (hr : t.status = .running) : Takes s none (.next t) :=
  ⟨t, rfl, fun e => by rw [hr]; simp⟩

theorem not_fault_of_normal {t : State} (h : t.status = .halted .normal) (e : CoreError) :
    t.status ≠ .halted (.fault e) := by
  rw [h]
  simp

@[simp] theorem afterHandler_status (op : Byte) (a : Nat) (t : State) : (afterHandler op a t).status = t.status := by
  obtain ⟨-, -, hstatus, -, -⟩ := afterHandler_frame op a t
  exact hstatus

/-- An ALU instruction on registers takes the error of its function alone. -/
theorem takes_alu {m : Mnemonic} {f : Byte → Byte → Except CoreError Byte} {s : State} {a b : RegIdx}
    (hr : s.status = .running) (hf : ∃ v, f (s.getReg a) (s.getReg b) = .ok v) :
    Takes s none (runHandler m (aluHandler f (regByte a) (regByte b)) s) := by
  obtain ⟨v, hv⟩ := hf
  rw [runHandler_ok (by rw [aluHandler_regByte, hv])]
  exact takes_none (by simpa using hr)

/-- An instruction whose operand bytes name registers takes the error of its handler's own check. -/
theorem exec_takes_of_named {s : State} {i : Instr} (hr : s.status = .running) (hiret : i ≠ .iret)
    (hnamed : ∀ o ∈ i.registerOperands, ∃ r, o = regByte r) :
    Takes s (handlerError s (divisor s i) i.mnemonic) (exec i s) := by
  cases i with
  | hlt =>
    rw [exec, execHlt_eq]
    exact ⟨_, rfl, not_fault_of_normal (by split_ifs <;> rfl)⟩
  | iret => exact absurd rfl hiret
  | ret =>
    rw [exec, execRet_eq]
    simp only [handlerError, Instr.mnemonic]
    cases popError s with
    | some e => rfl
    | none => exact takes_none hr
  | push o =>
    obtain ⟨r, rfl⟩ := hnamed o List.mem_cons_self
    rw [exec, execPush_regByte]
    simp only [handlerError, Instr.mnemonic]
    cases pushError s with
    | some e => rfl
    | none => exact takes_none (by simpa using hr)
  | pop o =>
    obtain ⟨r, rfl⟩ := hnamed o List.mem_cons_self
    rw [exec, execPop_regByte]
    simp only [handlerError, Instr.mnemonic]
    cases popError s with
    | some e => rfl
    | none => exact takes_none (by simpa using hr)
  | call o =>
    obtain ⟨r, rfl⟩ := hnamed o List.mem_cons_self
    rw [exec, execCall_regByte]
    simp only [handlerError, Instr.mnemonic]
    split_ifs
    · rfl
    · cases pushError s with
      | some e => rfl
      | none => exact takes_none hr
  | prn o | pra o | jmp o | ldi o imm =>
    obtain ⟨r, rfl⟩ := hnamed o List.mem_cons_self
    simp only [exec, execPrn_regByte, execPra_regByte, execJmp_regByte, execLdi_regByte]
    exact takes_none (by simpa using hr)
  | st o1 o2 =>
    obtain ⟨a, rfl⟩ := hnamed o1 List.mem_cons_self
    obtain ⟨b, rfl⟩ := hnamed o2 (List.mem_cons_of_mem _ List.mem_cons_self)
    rw [exec, execSt_regByte]
    exact takes_none (by simpa using hr)
  | add o1 o2 | sub o1 o2 | mul o1 o2 =>
    obtain ⟨a, rfl⟩ := hnamed o1 List.mem_cons_self
    obtain ⟨b, rfl⟩ := hnamed o2 (List.mem_cons_of_mem _ List.mem_cons_self)
    exact takes_alu hr ⟨_, rfl⟩
  | div o1 o2 =>
    obtain ⟨a, rfl⟩ := hnamed o1 List.mem_cons_self
    obtain ⟨b, rfl⟩ := hnamed o2 (List.mem_cons_of_mem _ List.mem_cons_self)
    have hb : divisor s (.div (regByte a) (regByte b)) = s.getReg b := by simp [divisor, Instr.operands]
    simp only [handlerError, Instr.mnemonic, hb]
    split_ifs with hzero
    · exact runHandler_alu_error (if_pos hzero)
    · exact takes_alu hr ⟨_, if_neg hzero⟩

/-- Each instruction takes exactly the error that the last checks of R104 name. -/
theorem exec_takes {s : State} (hr : s.status = .running) (i : Instr) : Takes s (execError s i) (exec i s) := by
  by_cases hiret : i = .iret
  · subst hiret
    rw [exec, execIret_eq]
    cases hmode : s.config.iretMode with
    | omitted =>
      rw [execError, if_pos ⟨rfl, hmode⟩]
      rfl
    | noop =>
      rw [execError, if_neg (by simp [hmode])]
      exact takes_none hr
  · rw [execError_of_ne_iret s hiret]
    cases hfind : i.registerOperands.find? badRegister with
    | some o => exact exec_bad_register s hfind
    | none => exact exec_takes_of_named hr hiret fun o ho => registerOperand_named hfind ho

/-- R104: a cycle of the running core takes exactly the error `firstError` names. -/
theorem step_takes {s : State} (hr : s.status = .running) : Takes s (firstError s) (step s) := by
  cases hf : fetch s with
  | error e =>
    rw [firstError_of_fetch_error hf]
    exact step_of_fetch_error hr hf
  | ok i =>
    rw [firstError_of_fetch_ok hf, step_of_fetch_ok hr hf]
    exact exec_takes hr i

end Sys2Proof.Machine

open Sys2Proof Sys2Proof.Machine

/-- Settles O16: the fetch takes the first three errors of the order and the instruction it fetches the others, and a
cycle that takes none ends without an error. -/
theorem errorPriority : Obligations.ErrorPriority := by
  unfold Obligations.ErrorPriority
  exact fun s hr e => (step_takes hr).eq_raise_iff e

/-- Settles O12: a cycle that ends in an error has taken it, since a completed instruction leaves the core running or
halted by HLT. -/
theorem errorsArePrecise : Obligations.ErrorsArePrecise := by
  unfold Obligations.ErrorsArePrecise
  intro s t e hstep hfault
  rcases step_cases hstep with ⟨hr, ⟨e', rfl⟩ | ⟨i, -, hc⟩⟩
  · rw [State.raise_status] at hfault
    cases hfault
    rfl
  · rcases hc.status_cases with ⟨-, hnormal⟩ | hsame
    · exact absurd hfault (not_fault_of_normal hnormal e)
    · rw [hsame, hr] at hfault
      cases hfault

/-- Settles O13: the opcode byte's own read is the first check of the fetch (R69). -/
theorem opcodeFetchOutsideMemoryFaults : Obligations.OpcodeFetchOutsideMemoryFaults := by
  unfold Obligations.OpcodeFetchOutsideMemoryFaults
  exact fun s hr hpc => step_of_fetch_error hr (fetch_opcode_outside hpc)

/-- Settles O15: a byte that selects a mnemonic is that mnemonic's, one of the fifteen. -/
theorem illegalByteIsUnknownOpcode : Obligations.IllegalByteIsUnknownOpcode := by
  unfold Obligations.IllegalByteIsUnknownOpcode
  intro s hr _ hnone hin
  rw [← operandCount_eq_div] at hin
  refine step_of_fetch_error hr (fetch_unknown ?_ hin)
  cases hm : mnemonicOf (Memory.read s.mem s.pc) with
  | none => rfl
  | some m =>
    rw [← mnemonicOf_eq_some hm] at hnone
    exact absurd (opcode_mem_table m) hnone

/-- Settles O17: the handler resolves its register operands first, in order. -/
theorem invalidRegisterOperandFaults : Obligations.InvalidRegisterOperandFaults := by
  unfold Obligations.InvalidRegisterOperandFaults
  exact fun i o s hfirst => exec_bad_register s hfirst

end

section
/-! What a completed instruction writes (spec 10_state.md R33): memory, pc, each register and the parameters, said once for
all instructions. -/

namespace Sys2Proof.Machine

variable {s t : State} {i : Instr}

/-- A push that meets no error moves SP down by one, without wrap. -/
theorem pred_sp_toNat (h : pushError s = none) : (s.getReg sp - 1#8).toNat + 1 = (s.getReg sp).toNat := by
  have hpos : s.config.stackBottom.val < (s.getReg sp).toNat := (pushError_eq_none.mp h).1
  have hlt := (s.getReg sp).isLt
  rw [BitVec.toNat_sub, BitVec.toNat_ofNat]
  omega

theorem regByte_injective {r q : RegIdx} (h : regByte r = regByte q) : r = q := by
  have hval := congrArg BitVec.toNat h
  rw [regByte_toNat, regByte_toNat] at hval
  exact Fin.ext hval

/-- A write of one register keeps any other one. -/
theorem State.getReg_setReg_cases (s : State) (r q : RegIdx) (v : Byte) :
    (s.setReg r v).getReg q = s.getReg q ∨ q = r := by
  by_cases h : q = r
  · exact .inr h
  · exact .inl (s.getReg_setReg_of_ne h v)

/-- R33, R38: ST writes one cell, PUSH and CALL write the cell below SP, and no other instruction writes any. -/
theorem Completes.mem_cases (h : Completes s i t) :
    t.mem = s.mem ∨
    (∃ a b : RegIdx, i = .st (regByte a) (regByte b) ∧
      t.mem = Memory.write s.mem (s.getReg a).toNat (s.getReg b)) ∨
    (∃ (r : RegIdx) (v : Byte), (i = .push (regByte r) ∨ i = .call (regByte r)) ∧ pushError s = none ∧
      t.mem = Memory.write s.mem (s.getReg sp - 1#8).toNat v) := by
  cases i with
  | st o1 o2 =>
    obtain ⟨a, b, rfl, rfl, rfl⟩ := h
    exact .inr (.inl ⟨a, b, rfl, rfl⟩)
  | push o =>
    obtain ⟨r, rfl, hpush, rfl⟩ := h
    exact .inr (.inr ⟨r, _, .inl rfl, hpush, rfl⟩)
  | call o =>
    obtain ⟨r, rfl, -, hpush, _, rfl, rfl⟩ := h
    exact .inr (.inr ⟨r, _, .inr rfl, hpush, rfl⟩)
  | hlt =>
    obtain rfl := h
    exact .inl (by split_ifs <;> rfl)
  | ret | iret => exact .inl (by obtain ⟨-, rfl⟩ := h; rfl)
  | pop o => exact .inl (by obtain ⟨_, -, -, _, rfl, rfl⟩ := h; rfl)
  | prn o | pra o | jmp o | ldi o imm => exact .inl (by obtain ⟨_, -, rfl⟩ := h; rfl)
  | add o1 o2 | sub o1 o2 | mul o1 o2 | div o1 o2 => exact .inl (by obtain ⟨_, _, _, -, -, rfl⟩ := h; rfl)

/-- R72, R92: HLT halts the core; of the others CALL, RET and JMP go to a byte, and the rest to the next instruction. -/
theorem Completes.pc_cases (h : Completes s i t) :
    (i = .hlt ∧ t.status = .halted .normal ∧ t.pc = if s.config.hltAdvancesPc then s.pc + 1 else s.pc) ∨
    (t.status = s.status ∧ i.mnemonic ∈ [.call, .ret, .jmp] ∧ t.pc < memSize) ∨
    (t.status = s.status ∧ i.mnemonic ∉ [.call, .ret, .jmp] ∧ t.pc = s.pc + (encode i).length) := by
  cases i with
  | hlt =>
    obtain rfl := h
    exact .inl ⟨rfl, by split_ifs <;> rfl, by split_ifs <;> rfl⟩
  | ret =>
    obtain ⟨-, rfl⟩ := h
    exact .inr (.inl ⟨rfl, by simp [Instr.mnemonic], byte_lt_memSize _⟩)
  | call o =>
    obtain ⟨_, -, -, -, _, rfl, rfl⟩ := h
    exact .inr (.inl ⟨rfl, by simp [Instr.mnemonic], byte_lt_memSize _⟩)
  | jmp o =>
    obtain ⟨_, -, rfl⟩ := h
    exact .inr (.inl ⟨rfl, by simp [Instr.mnemonic], byte_lt_memSize _⟩)
  | iret =>
    obtain ⟨-, rfl⟩ := h
    exact .inr (.inr ⟨rfl, by simp [Instr.mnemonic], rfl⟩)
  | push o =>
    obtain ⟨_, -, -, rfl⟩ := h
    exact .inr (.inr ⟨rfl, by simp [Instr.mnemonic], rfl⟩)
  | pop o =>
    obtain ⟨_, -, -, _, rfl, rfl⟩ := h
    exact .inr (.inr ⟨rfl, by simp [Instr.mnemonic], rfl⟩)
  | prn o | pra o | ldi o imm =>
    obtain ⟨_, -, rfl⟩ := h
    exact .inr (.inr ⟨rfl, by simp [Instr.mnemonic], rfl⟩)
  | st o1 o2 =>
    obtain ⟨_, _, -, -, rfl⟩ := h
    exact .inr (.inr ⟨rfl, by simp [Instr.mnemonic], rfl⟩)
  | add o1 o2 | sub o1 o2 | mul o1 o2 | div o1 o2 =>
    obtain ⟨_, _, _, -, -, rfl⟩ := h
    exact .inr (.inr ⟨rfl, by simp [Instr.mnemonic], rfl⟩)

/-- R21, R33: a register is written by the instruction whose first operand names it, and SP by the stack instructions. -/
theorem Completes.reg_cases (h : Completes s i t) (q : RegIdx) :
    t.getReg q = s.getReg q ∨
    (i.mnemonic ∈ [.ldi, .pop, .add, .sub, .mul, .div] ∧ i.operands.head? = some (regByte q)) ∨
    (q = sp ∧ i.mnemonic ∈ [.push, .pop, .call, .ret]) := by
  cases i with
  | hlt =>
    obtain rfl := h
    exact .inl (by split_ifs <;> rfl)
  | iret => exact .inl (by obtain ⟨-, rfl⟩ := h; rfl)
  | prn o | pra o | jmp o => exact .inl (by obtain ⟨_, -, rfl⟩ := h; rfl)
  | st o1 o2 => exact .inl (by obtain ⟨_, _, -, -, rfl⟩ := h; rfl)
  | ret =>
    obtain ⟨-, rfl⟩ := h
    rcases State.getReg_setReg_cases _ sp q _ with hkept | rfl
    · exact .inl hkept
    · exact .inr (.inr ⟨rfl, by simp [Instr.mnemonic]⟩)
  | push o =>
    obtain ⟨_, -, -, rfl⟩ := h
    rcases State.getReg_setReg_cases s sp q (s.getReg sp - 1#8) with hkept | rfl
    · exact .inl hkept
    · exact .inr (.inr ⟨rfl, by simp [Instr.mnemonic]⟩)
  | call o =>
    obtain ⟨_, -, -, -, _, rfl, rfl⟩ := h
    rcases State.getReg_setReg_cases s sp q (s.getReg sp - 1#8) with hkept | rfl
    · exact .inl hkept
    · exact .inr (.inr ⟨rfl, by simp [Instr.mnemonic]⟩)
  | pop o =>
    obtain ⟨r, rfl, -, _, rfl, rfl⟩ := h
    rcases State.getReg_setReg_cases _ sp q _ with hsp | rfl
    · rcases State.getReg_setReg_cases s r q _ with hkept | rfl
      · exact .inl (hsp.trans hkept)
      · exact .inr (.inl ⟨by simp [Instr.mnemonic], rfl⟩)
    · exact .inr (.inr ⟨rfl, by simp [Instr.mnemonic]⟩)
  | ldi o imm =>
    obtain ⟨r, rfl, rfl⟩ := h
    rcases State.getReg_setReg_cases s r q imm with hkept | rfl
    · exact .inl hkept
    · exact .inr (.inl ⟨by simp [Instr.mnemonic], rfl⟩)
  | add o1 o2 | sub o1 o2 | mul o1 o2 | div o1 o2 =>
    obtain ⟨a, _, v, rfl, -, rfl⟩ := h
    rcases State.getReg_setReg_cases s a q v with hkept | rfl
    · exact .inl hkept
    · exact .inr (.inl ⟨by simp [Instr.mnemonic], rfl⟩)

/-- No instruction writes a parameter (00_scope.md R7). -/
theorem Completes.config_eq (h : Completes s i t) : t.config = s.config := by
  cases i with
  | hlt =>
    obtain rfl := h
    split_ifs <;> rfl
  | ret | iret => obtain ⟨-, rfl⟩ := h; rfl
  | push o => obtain ⟨_, -, -, rfl⟩ := h; rfl
  | pop o => obtain ⟨_, -, -, _, rfl, rfl⟩ := h; rfl
  | call o => obtain ⟨_, -, -, -, _, rfl, rfl⟩ := h; rfl
  | prn o | pra o | jmp o | ldi o imm => obtain ⟨_, -, rfl⟩ := h; rfl
  | st o1 o2 => obtain ⟨_, _, -, -, rfl⟩ := h; rfl
  | add o1 o2 | sub o1 o2 | mul o1 o2 | div o1 o2 => obtain ⟨_, _, _, -, -, rfl⟩ := h; rfl

/-- Every write of an instruction is to the address a byte gives. -/
theorem Completes.wf_mem (h : Completes s i t) (hwf : Memory.wf s.mem = true) : Memory.wf t.mem = true := by
  rcases h.mem_cases with hmem | ⟨_, _, -, hmem⟩ | ⟨_, _, -, -, hmem⟩ <;> rw [hmem]
  · exact hwf
  · exact Memory.wf_write hwf (byte_lt_memSize _)
  · exact Memory.wf_write hwf (byte_lt_memSize _)

/-- A fetched instruction lies within memory, so pc moves past the last cell at most. -/
theorem Completes.pc_le (h : Completes s i t) (hf : fetch s = .ok i) : t.pc ≤ memSize := by
  obtain ⟨hfit, -, -⟩ := fetch_ok hf
  rcases h.pc_cases with ⟨rfl, -, hpc⟩ | ⟨-, -, hpc⟩ | ⟨-, -, hpc⟩
  · have hone : (encode .hlt).length = 1 := rfl
    split_ifs at hpc <;> omega
  · omega
  · omega

/-- R87: what a completed CALL leaves, the register it names being any. -/
theorem Completes.call_effect {r : RegIdx} (h : Completes s (.call (regByte r)) t) :
    t.pc = (t.getReg r).toNat ∧ (Memory.read t.mem (t.getReg sp).toNat).toNat = s.pc + 2 ∧ pushError s = none ∧
      t.getReg sp = s.getReg sp - 1#8 ∧ KeepsRegs s t [sp] := by
  obtain ⟨q, hq, hret, hpush, _, rfl, rfl⟩ := h
  obtain rfl := regByte_injective hq
  have hsp : (s.setReg sp (s.getReg sp - 1#8)).getReg sp = s.getReg sp - 1#8 := State.getReg_setReg_self ..
  refine ⟨rfl, ?link, hpush, hsp, fun q hq => ?kept⟩
  case link =>
    refine (congrArg BitVec.toNat ?_).trans (trunc8_of_lt hret)
    exact (congrArg (fun v => Memory.read (Memory.write s.mem _ _) (BitVec.toNat v)) hsp).trans
      (Memory.read_write_self ..)
  case kept => exact State.getReg_setReg_of_ne s (by simpa using hq) _

theorem Completes.jmp_effect {r : RegIdx} (h : Completes s (.jmp (regByte r)) t) : t.pc = (t.getReg r).toNat := by
  obtain ⟨q, hq, rfl⟩ := h
  obtain rfl := regByte_injective hq
  rfl

/-- R73: the instructions that transfer control set pc themselves. -/
theorem setsPc_of_transfer {m : Mnemonic} (h : m ∈ [.call, .ret, .jmp]) : (decodeShape m.opcode).setsPc = true := by
  rw [setsPc_opcode]
  simp only [List.mem_cons, List.not_mem_nil, or_false] at h
  rcases h with rfl | rfl | rfl <;> rfl

end Sys2Proof.Machine

open Sys2Proof Sys2Proof.Machine

/-- Settles O3: an error keeps memory and pc, and a fetched instruction that completes keeps the canonical form and leaves
pc within 256. -/
theorem stepKeepsInvariant : Obligations.StepKeepsInvariant := by
  unfold Obligations.StepKeepsInvariant
  rintro s t ⟨hwf, hpc⟩ hstep
  rcases step_cases hstep with ⟨-, ⟨e, rfl⟩ | ⟨i, hf, hc⟩⟩
  · exact ⟨hwf, hpc⟩
  · exact ⟨hc.wf_mem hwf, hc.pc_le hf⟩

/-- Settles O38: a cell that reads otherwise than before is the one a completed ST, PUSH or CALL wrote. -/
theorem memoryIsWrittenOnlyByStPushCall : Obligations.MemoryIsWrittenOnlyByStPushCall := by
  unfold Obligations.MemoryIsWrittenOnlyByStPushCall
  intro s t x hstep hchanged
  rcases step_cases hstep with ⟨-, ⟨e, rfl⟩ | ⟨i, hf, hc⟩⟩
  · exact absurd rfl hchanged
  · rcases hc.mem_cases with hmem | ⟨a, b, rfl, hmem⟩ | ⟨r, v, hi, hpush, hmem⟩
    · exact absurd (by rw [hmem]) hchanged
    · refine .inl ⟨a, b, hf, ?_⟩
      by_contra hx
      exact hchanged (by rw [hmem, Memory.read_write_of_ne _ hx])
    · refine .inr ⟨r, ?_, ?_⟩
      · rcases hi with rfl | rfl
        · exact .inl hf
        · exact .inr hf
      · have hx : x = (s.getReg sp - 1#8).toNat := by
          by_contra hx
          exact hchanged (by rw [hmem, Memory.read_write_of_ne _ hx])
        rw [hx]
        exact pred_sp_toNat hpush

/-- Settles O39: an error keeps every register, and a completed instruction writes only its own. -/
theorem registersAreWrittenOnlyByTheirInstructions : Obligations.RegistersAreWrittenOnlyByTheirInstructions := by
  unfold Obligations.RegistersAreWrittenOnlyByTheirInstructions
  intro s t q hstep hchanged
  rcases step_cases hstep with ⟨-, ⟨e, rfl⟩ | ⟨i, hf, hc⟩⟩
  · exact absurd rfl hchanged
  · exact ⟨i, hf, (hc.reg_cases q).resolve_left hchanged⟩

/-- Settles O40: an error keeps the parameters (R107), and no completed instruction writes one. -/
theorem stepKeepsTheParameters : Obligations.StepKeepsTheParameters := by
  unfold Obligations.StepKeepsTheParameters
  refine ⟨rfl, rfl, rfl, fun s t hstep => ?_⟩
  rcases step_cases hstep with ⟨-, ⟨e, rfl⟩ | ⟨i, -, hc⟩⟩
  · rfl
  · exact hc.config_eq

/-- Settles O18: an error keeps pc (D8), HLT alone halts normally, and of the instructions with the sets_pc bit clear every
other one moves past itself. -/
theorem pcAfterACycle : Obligations.PcAfterACycle := by
  unfold Obligations.PcAfterACycle
  intro s t i hf hstep
  rcases step_cases hstep with ⟨hr, ⟨e, rfl⟩ | ⟨j, hj, hc⟩⟩
  · simp
  · obtain rfl : i = j := Except.ok.inj (hf.symm.trans hj)
    rcases hc.pc_cases with ⟨rfl, hnormal, hpc⟩ | ⟨hrun, hmem, -⟩ | ⟨hrun, -, hpc⟩
    · rw [hnormal]
      simp [hpc]
    · rw [hrun, hr, setsPc_of_transfer hmem]
      simp
    · rw [hrun, hr]
      simp [hpc]

/-- Settles O19: the core runs on after a completed instruction other than HLT; where each leaves pc is said above. -/
theorem controlTransfers : Obligations.ControlTransfers := by
  unfold Obligations.ControlTransfers
  intro i s t hr hexec hrun
  rcases exec_cases hr hexec with ⟨e, rfl⟩ | hc
  · cases hrun
  refine ⟨fun hother => ?others, ?toRegister, ?toStack, ?link, fun htransfer => ?inMemory⟩
  case others =>
    rcases hc.pc_cases with ⟨-, hnormal, -⟩ | ⟨-, htransfer, -⟩ | ⟨-, -, hpc⟩
    · rw [hnormal] at hrun
      cases hrun
    · exact absurd htransfer hother
    · exact hpc
  case toRegister =>
    rintro r (rfl | rfl)
    · obtain ⟨hpc, -⟩ := hc.call_effect
      exact hpc
    · exact hc.jmp_effect
  case toStack =>
    rintro rfl
    obtain ⟨-, rfl⟩ := hc
    rfl
  case link =>
    rintro r rfl
    obtain ⟨-, hlink, -, -, hkept⟩ := hc.call_effect
    exact ⟨hlink, hkept⟩
  case inMemory =>
    rcases hc.pc_cases with ⟨-, hnormal, -⟩ | ⟨-, -, hpc⟩ | ⟨-, hother, -⟩
    · rw [hnormal] at hrun
      cases hrun
    · exact hpc
    · exact absurd htransfer hother

end

section
/-! The instructions that are no ALU instruction, on registers and a running core (spec 42_stack_subroutine.md,
43_immediate_io_memory.md): the whole next state of each, and what programs of two of them do. -/

namespace Sys2Proof.Machine

variable {s : State} {r a b : RegIdx}

/-! ### The next state -/

theorem exec_ldi (hr : s.status = .running) (imm : Byte) :
    exec (.ldi (regByte r) imm) s = .next ((s.setReg r imm).setPc (s.pc + 3)) := by
  rw [exec, execLdi_regByte, afterHandler_eq (by exact hr) (setsPc_opcode .ldi) (operandCount_opcode .ldi)]

theorem exec_prn (hr : s.status = .running) :
    exec (.prn (regByte r)) s = .next ((s.emit (.dec (s.getReg r))).setPc (s.pc + 2)) := by
  rw [exec, execPrn_regByte, afterHandler_eq (by exact hr) (setsPc_opcode .prn) (operandCount_opcode .prn)]

theorem exec_pra (hr : s.status = .running) :
    exec (.pra (regByte r)) s = .next ((s.emit (.chr (s.getReg r))).setPc (s.pc + 2)) := by
  rw [exec, execPra_regByte, afterHandler_eq (by exact hr) (setsPc_opcode .pra) (operandCount_opcode .pra)]

theorem exec_st (hr : s.status = .running) : exec (.st (regByte a) (regByte b)) s =
    .next { s with mem := Memory.write s.mem (s.getReg a).toNat (s.getReg b), pc := s.pc + 3 } := by
  rw [exec, execSt_regByte, afterHandler_eq (by exact hr) (setsPc_opcode .st) (operandCount_opcode .st)]
  rfl

theorem exec_jmp : exec (.jmp (regByte r)) s = .next (s.setPc (s.getReg r).toNat) := execJmp_regByte s r

/-! ### The stack instructions -/

/-- SP one lower, a byte in the cell it then points at, and pc somewhere: what PUSH and CALL leave. -/
def State.pushed (s : State) (v : Byte) (pc : Nat) : State :=
  { s.setReg sp (s.getReg sp - 1#8) with mem := Memory.write s.mem (s.getReg sp - 1#8).toNat v, pc := pc }

@[simp] theorem State.pushed_sp (s : State) (v : Byte) (pc : Nat) :
    (s.pushed v pc).getReg sp = s.getReg sp - 1#8 := State.getReg_setReg_self ..

theorem State.pushed_keepsRegs (s : State) (v : Byte) (pc : Nat) : KeepsRegs s (s.pushed v pc) [sp] :=
  fun _ hq => State.getReg_setReg_of_ne s (List.ne_of_not_mem_cons hq) _

/-- The cell a push that meets no error writes, in the obligations' spelling. -/
theorem pred_sp_eq (h : pushError s = none) : (s.getReg sp - 1#8).toNat = (s.getReg sp).toNat - 1 := by
  have := pred_sp_toNat h
  omega

theorem State.read_pushed (h : pushError s = none) (v : Byte) (pc : Nat) :
    Memory.read (s.pushed v pc).mem ((s.getReg sp).toNat - 1) = v := by
  rw [← pred_sp_eq h]
  exact Memory.read_write_self ..

theorem State.pushed_keepsMem (h : pushError s = none) (v : Byte) (pc : Nat) :
    KeepsMem s (s.pushed v pc) [(s.getReg sp).toNat - 1] := by
  intro x hx
  rw [← pred_sp_eq h] at hx
  exact Memory.read_write_of_ne s.mem (List.ne_of_not_mem_cons hx) v

theorem exec_push (hr : s.status = .running) (h : pushError s = none) : exec (.push (regByte r)) s =
    .next (s.pushed (if r = sp then s.getReg sp - 1#8 else s.getReg r) (s.pc + 2)) := by
  rw [exec, execPush_regByte, h, ← State.getReg_setReg]
  dsimp only
  rw [afterHandler_eq (by exact hr) (setsPc_opcode .push) (operandCount_opcode .push)]
  rfl

theorem exec_call (hret : s.pc + 2 < memSize) (h : pushError s = none) : exec (.call (regByte r)) s =
    .next (s.pushed (trunc8 ((s.pc + 2 : Nat) : Int))
      (if r = sp then s.getReg sp - 1#8 else s.getReg r).toNat) := by
  rw [exec, execCall_regByte, if_neg (Nat.not_le.mpr hret), h, ← State.getReg_setReg]
  rfl

/-- A byte in a register, then SP one higher, and pc somewhere: what POP leaves. -/
def State.popped (s : State) (r : RegIdx) (v : Byte) (pc : Nat) : State :=
  ((s.setReg r v).setReg sp (trunc8 (((s.setReg r v).getReg sp).toNat + 1))).setPc pc

theorem State.popped_value (s : State) {r : RegIdx} (hr : r ≠ sp) (v : Byte) (pc : Nat) :
    (s.popped r v pc).getReg r = v :=
  (State.getReg_setReg_of_ne _ hr _).trans (State.getReg_setReg_self _ _ _)

theorem State.popped_sp (s : State) (r : RegIdx) (v : Byte) (pc : Nat) :
    (s.popped r v pc).getReg sp = trunc8 ((if sp = r then v else s.getReg sp).toNat + 1) := by
  rw [← State.getReg_setReg]
  exact State.getReg_setReg_self _ _ _

theorem State.popped_keepsRegs (s : State) (r : RegIdx) (v : Byte) (pc : Nat) :
    KeepsRegs s (s.popped r v pc) [r, sp] := by
  intro q hq
  rw [List.mem_cons, List.mem_singleton, not_or] at hq
  exact (State.getReg_setReg_of_ne _ hq.2 _).trans (State.getReg_setReg_of_ne _ hq.1 _)

theorem exec_pop (hr : s.status = .running) (h : popError s = none) : exec (.pop (regByte r)) s =
    .next (s.popped r (Memory.read s.mem (s.getReg sp).toNat) (s.pc + 2)) := by
  rw [exec, execPop_regByte, h]
  dsimp only
  rw [afterHandler_eq (by exact hr) (setsPc_opcode .pop) (operandCount_opcode .pop)]
  rfl

theorem exec_ret (h : popError s = none) : exec .ret s =
    .next ((s.setPc (Memory.read s.mem (s.getReg sp).toNat).toNat).setReg sp (trunc8 ((s.getReg sp).toNat + 1))) := by
  rw [exec, execRet_eq, h]

/-- SP + 1 in the stack region does not wrap. -/
theorem succ_sp_toNat (h : popError s = none) : (trunc8 ((s.getReg sp).toNat + 1)).toNat = (s.getReg sp).toNat + 1 := by
  have hle : (s.getReg sp).toNat ≤ 0xF3 := (popError_eq_none.mp h).2
  exact trunc8_of_lt (n := (s.getReg sp).toNat + 1) (by omega)

/-- SP moved down by a push is where a pop may read. -/
theorem popError_of_pushed {u : State} (h : pushError s = none) (hc : u.config = s.config)
    (hsp : u.getReg sp = s.getReg sp - 1#8) : popError u = none := by
  obtain ⟨hlow, hhigh⟩ := pushError_eq_none.mp h
  have hpred : u.spNat + 1 = s.spNat := by
    rw [State.spNat, show (7 : RegIdx) = sp from rfl, hsp]
    exact pred_sp_toNat h
  rw [popError_eq_none, hc]
  omega

/-- SP moved down by a push comes back when it moves up. -/
theorem succ_pred_sp (h : pushError s = none) : trunc8 ((s.getReg sp - 1#8).toNat + 1) = s.getReg sp := by
  have hlt := (s.getReg sp).isLt
  refine BitVec.eq_of_toNat_eq ((trunc8_natCast_toNat _).trans ?_)
  rw [pred_sp_toNat h, Nat.mod_eq_of_lt hlt]

theorem State.read_pushed_sp (s : State) (v : Byte) (pc : Nat) :
    Memory.read (s.pushed v pc).mem ((s.pushed v pc).getReg sp).toNat = v := by
  rw [State.pushed_sp]
  exact Memory.read_write_self _ _ _

/-! ### A store into the next instruction -/

/-- A running core that stores into the cell after its ST goes on there with that byte in place (R96). -/
theorem step_st_next (hr : s.status = .running) (hf : fetch s = .ok (.st (regByte a) (regByte b)))
    (haddr : (s.getReg a).toNat = s.pc + 3) : ∃ t, step s = .next t ∧ t.status = .running ∧ t.pc = s.pc + 3 ∧
      Memory.read t.mem t.pc = s.getReg b ∧ KeepsMem s t [t.pc] := by
  refine ⟨_, (step_of_fetch_ok hr hf).trans (exec_st hr), hr, rfl, ?written, fun x hx => ?kept⟩
  case written =>
    rw [haddr]
    exact Memory.read_write_self _ _ _
  case kept =>
    rw [haddr]
    exact Memory.read_write_of_ne _ (List.ne_of_not_mem_cons hx) _

/-- The operand bytes after a cell are not changed by a write of that cell. -/
theorem fetch_iff_dispatch_of_keepsMem {t : State} {i : Instr} (hkept : KeepsMem s t [t.pc])
    (hin : t.pc + (decodeShape (Memory.read t.mem t.pc)).operandCount < memSize) :
    fetch t = .ok i ↔ dispatch (Memory.read t.mem t.pc)
      ((List.range (decodeShape (Memory.read t.mem t.pc)).operandCount).map
        fun k => Memory.read s.mem (t.pc + 1 + k)) = some i := by
  have hoperands : ∀ k, Memory.read t.mem (t.pc + 1 + k) = Memory.read s.mem (t.pc + 1 + k) :=
    fun k => hkept _ (by simp; omega)
  rw [fetch_eq_ok_iff_dispatch hin, map_read_range', List.map_congr_left fun k _ => hoperands k]

/-! ### The errors of the stack instructions -/

theorem exec_push_error {e : CoreError} (h : pushError s = some e) : exec (.push (regByte r)) s = .next (s.raise e) := by
  rw [exec, execPush_regByte, h]

theorem exec_call_error {e : CoreError} (hret : s.pc + 2 < memSize) (h : pushError s = some e) :
    exec (.call (regByte r)) s = .next (s.raise e) := by
  rw [exec, execCall_regByte, if_neg (Nat.not_le.mpr hret), h]

theorem exec_pop_error {e : CoreError} (h : popError s = some e) : exec (.pop (regByte r)) s = .next (s.raise e) := by
  rw [exec, execPop_regByte, h]

theorem exec_ret_error {e : CoreError} (h : popError s = some e) : exec .ret s = .next (s.raise e) := by
  rw [exec, execRet_eq, h]

end Sys2Proof.Machine

open Sys2Proof Sys2Proof.Machine

/-- Settles O21: LDI is one register write (R93). -/
theorem ldiLoadsTheImmediate : Obligations.LdiLoadsTheImmediate := by
  unfold Obligations.LdiLoadsTheImmediate
  refine fun r imm s hr => ⟨_, exec_ldi hr imm, s.getReg_setReg_self r imm, fun q hq => ?_, rfl⟩
  exact s.getReg_setReg_of_ne (List.ne_of_not_mem_cons hq) imm

/-- Settles O22: PRN and PRA are one emission each (R94, R95). -/
theorem outputInstructionsEmit : Obligations.OutputInstructionsEmit := by
  unfold Obligations.OutputInstructionsEmit
  exact fun r s hr => ⟨exec_prn hr, exec_pra hr⟩

/-- Settles O23: the store is one memory write. -/
theorem stStoresThroughARegister : Obligations.StStoresThroughARegister := by
  unfold Obligations.StStoresThroughARegister
  refine fun a b s hr => ⟨_, exec_st hr, Memory.read_write_self .., fun x hx => ?_, rfl⟩
  exact Memory.read_write_of_ne s.mem (List.ne_of_not_mem_cons hx) _

/-- Settles O25: SP within the region makes the push check pass. -/
theorem pushStoresBelowTheStackPointer : Obligations.PushStoresBelowTheStackPointer := by
  unfold Obligations.PushStoresBelowTheStackPointer
  intro r s hr hlow hhigh
  have hpush : pushError s = none := pushError_eq_none.mpr ⟨hlow, hhigh⟩
  refine ⟨_, exec_push hr hpush, ?sp, State.pushed_keepsRegs _ _ _, ?cell, State.pushed_keepsMem hpush _ _, rfl⟩
  case sp => exact (congrArg (BitVec.toNat · + 1) (State.pushed_sp _ _ _)).trans (pred_sp_toNat hpush)
  case cell => exact (State.read_pushed hpush _ _).trans (if_congr Iff.rfl (State.pushed_sp _ _ _).symm rfl)

/-- Settles O26: SP within the region makes the pop check pass; where POP names SP, SP is read again after the write. -/
theorem popLoadsFromTheStackPointer : Obligations.PopLoadsFromTheStackPointer := by
  unfold Obligations.PopLoadsFromTheStackPointer
  intro r s hr hlow hhigh
  have hpop : popError s = none := popError_eq_none.mpr ⟨hlow, hhigh⟩
  refine ⟨_, exec_pop hr hpop, fun hne => ⟨State.popped_value s hne _ _, ?other⟩, ?self,
    State.popped_keepsRegs s r _ _, rfl⟩
  case other =>
    refine (congrArg BitVec.toNat (State.popped_sp _ _ _ _)).trans ?_
    rw [if_neg (show ¬ sp = r from Ne.symm hne)]
    exact succ_sp_toNat hpop
  case self =>
    rintro rfl
    refine (congrArg BitVec.toNat (State.popped_sp _ _ _ _)).trans ?_
    exact trunc8_natCast_toNat _

/-- Settles O27: both checks pass, and the target register is read after the push (D11). -/
theorem callPushesTheReturnAddress : Obligations.CallPushesTheReturnAddress := by
  unfold Obligations.CallPushesTheReturnAddress
  intro r s hr hret hlow hhigh
  have hpush : pushError s = none := pushError_eq_none.mpr ⟨hlow, hhigh⟩
  refine ⟨_, exec_call hret hpush, ?sp, State.pushed_keepsRegs _ _ _, ?link, State.pushed_keepsMem hpush _ _, ?target, rfl⟩
  case sp => exact (congrArg (BitVec.toNat · + 1) (State.pushed_sp _ _ _)).trans (pred_sp_toNat hpush)
  case link => exact (congrArg BitVec.toNat (State.read_pushed hpush ..)).trans (trunc8_of_lt hret)
  case target =>
    refine (apply_ite BitVec.toNat ..).trans ?_
    rw [pred_sp_eq hpush]
    rfl

/-- Settles O28: SP within the region makes the pop check pass. -/
theorem retPopsThePc : Obligations.RetPopsThePc := by
  unfold Obligations.RetPopsThePc
  intro s hr hlow hhigh
  have hpop : popError s = none := popError_eq_none.mpr ⟨hlow, hhigh⟩
  refine ⟨_, exec_ret hpop, ?sp, fun q hq => ?kept, rfl⟩
  case sp => exact (congrArg BitVec.toNat (State.getReg_setReg_self ..)).trans (succ_sp_toNat hpop)
  case kept => exact State.getReg_setReg_of_ne _ (List.ne_of_not_mem_cons hq) _

/-- Settles O29: JMP has no check of its own, and step 5 leaves its pc alone. -/
theorem jmpSetsThePc : Obligations.JmpSetsThePc := by
  unfold Obligations.JmpSetsThePc
  exact fun r s => exec_jmp

/-- Settles O34: step 5 does not advance a halted core, so pc is where HLT's handler left it. -/
theorem hltHaltsNormally : Obligations.HltHaltsNormally := by
  unfold Obligations.HltHaltsNormally
  intro s
  rw [exec, execHlt_eq]
  split_ifs <;> rfl

/-- Settles O35: the handler's two modes (R100). -/
theorem iretByMode : Obligations.IretByMode := by
  unfold Obligations.IretByMode
  intro s
  rw [exec, execIret_eq]
  refine ⟨fun hnoop => ?_, fun homitted => ?_⟩
  · rw [hnoop]
    rfl
  · rw [homitted]
    rfl

/-- Settles O31: the return address is checked before SP (D12). -/
theorem callAtTheEndOfMemoryFaults : Obligations.CallAtTheEndOfMemoryFaults := by
  unfold Obligations.CallAtTheEndOfMemoryFaults
  intro r s hret
  rw [exec, execCall_regByte]
  exact if_pos hret

/-- Settles O30: STACK_BOTTOM lies below 0xF4, so on each side the check's first or second condition decides alone. -/
theorem stackBoundErrors : Obligations.StackBoundErrors := by
  unfold Obligations.StackBoundErrors
  intro r s
  have hbottom := s.config.stackBottom.isLt
  refine ⟨fun h => ?_, fun h => ?_, fun h => ?_, fun h => ?_⟩
  · have hpush : pushError s = some .stackOverflow := if_pos h
    exact ⟨exec_push_error hpush, fun hret => exec_call_error hret hpush⟩
  · have hpush : pushError s = some .stackUnderflow := (if_neg (by rw [State.spNat]; omega)).trans (if_pos h)
    exact ⟨exec_push_error hpush, fun hret => exec_call_error hret hpush⟩
  · have hpop : popError s = some .stackUnderflow := if_pos h
    exact ⟨exec_pop_error hpop, exec_ret_error hpop⟩
  · have hpop : popError s = some .stackOverflow := (if_neg (by rw [State.spNat]; omega)).trans (if_pos h)
    exact ⟨exec_pop_error hpop, exec_ret_error hpop⟩

/-- Settles O32: the POP reads back the cell the PUSH wrote, and SP goes down by one and up again. -/
theorem pushPopRoundTrip : Obligations.PushPopRoundTrip := by
  unfold Obligations.PushPopRoundTrip
  intro i j s hr hi hj hlow hhigh
  have hpush : pushError s = none := pushError_eq_none.mpr ⟨hlow, hhigh⟩
  have hfirst : exec (.push (regByte i)) s = .next (s.pushed (s.getReg i) (s.pc + 2)) := by
    rw [exec_push hr hpush, if_neg (show ¬ i = sp from hi)]
  have hpop : popError (s.pushed (s.getReg i) (s.pc + 2)) = none :=
    popError_of_pushed hpush rfl (State.pushed_sp _ _ _)
  have hsecond := exec_pop (r := j) (s := s.pushed (s.getReg i) (s.pc + 2)) hr hpop
  rw [State.read_pushed_sp] at hsecond
  have hsp : ((s.pushed (s.getReg i) (s.pc + 2)).popped j (s.getReg i) (s.pc + 2 + 2)).getReg sp = s.getReg sp := by
    rw [State.popped_sp, if_neg (show ¬ sp = j from Ne.symm hj), State.pushed_sp]
    exact succ_pred_sp hpush
  refine ⟨_, _, hfirst, hsecond, State.popped_value _ hj _ _, hsp,
    State.read_pushed hpush _ (s.pc + 2), fun q hq => ?kept, State.pushed_keepsMem hpush _ (s.pc + 2)⟩
  by_cases hq7 : q = sp
  · rw [hq7]
    exact hsp
  · refine (State.popped_keepsRegs _ j _ _ q ?_).trans (State.pushed_keepsRegs s _ _ q ?_)
    · simpa [hq7] using hq
    · simpa using hq7

/-- Settles O33: the RET reads the return address from the cell the CALL wrote. -/
theorem callThenRetResumes : Obligations.CallThenRetResumes := by
  unfold Obligations.CallThenRetResumes
  intro r s t u hr hcall hrun hconfig hsp hlink
  rcases exec_cases hr hcall with ⟨e, rfl⟩ | hc
  · cases hrun
  obtain ⟨-, hret, hpush, htsp, -⟩ := hc.call_effect
  have husp : u.getReg sp = s.getReg sp - 1#8 := hsp.trans htsp
  refine ⟨_, exec_ret (popError_of_pushed hpush hconfig husp), ?pc, ?sp, rfl⟩
  case pc =>
    calc (Memory.read u.mem (u.getReg sp).toNat).toNat
        = (Memory.read u.mem (t.getReg sp).toNat).toNat := by rw [husp, htsp]
      _ = (Memory.read t.mem (t.getReg sp).toNat).toNat := congrArg BitVec.toNat hlink
      _ = s.pc + 2 := hret
  case sp =>
    refine (State.getReg_setReg_self _ _ _).trans ?_
    rw [husp]
    exact succ_pred_sp hpush

/-- Settles O24: the store is one memory write, at the new pc, and the next cycle fetches from there. -/
theorem storeIntoTheNextInstructionIsFetched : Obligations.StoreIntoTheNextInstructionIsFetched := by
  unfold Obligations.StoreIntoTheNextInstructionIsFetched
  intro a b s hr hf haddr op count
  obtain ⟨t, hstep, hrun, hpc, hop, hkept⟩ := step_st_next hr hf haddr
  have hlt : t.pc < memSize := by rw [hpc, ← haddr]; exact byte_lt_memSize _
  obtain ⟨u, hnext, -, hends⟩ := cycleIsTotal t hrun
  refine ⟨t, u, hstep, hrun, hpc, hop, hkept, fun i hi => ?opcode, fun hin i => ?dispatch, hnext, fun hnone => ?unknown,
    fun hhlt => ?hlt⟩
  case opcode =>
    obtain ⟨-, hopcode, -⟩ := fetch_ok hi
    exact hopcode.symm.trans hop
  case dispatch =>
    have hcount : (decodeShape (Memory.read t.mem t.pc)).operandCount = count := by rw [hop, operandCount_eq_div]
    rw [fetch_iff_dispatch_of_keepsMem hkept (by rw [hcount]; exact hin), hcount, hop]
  case unknown => exact hends (.inl (by rw [hop]; exact hnone))
  case hlt =>
    have hfetch : fetch t = .ok .hlt := fetch_of_bytes hlt (hop.trans hhlt) rfl
    have hhalt := (step_of_fetch_ok hrun hfetch).trans (hltHaltsNormally t)
    rw [hnext] at hhalt
    cases hhalt
    rfl

end

section
/-! The run loop (spec 40_cycle.md R76, R77): what a budgeted run does cycle by cycle, and that a stop between cycles
leaves no trace in it. -/

namespace Sys2Proof.Machine

variable {s t : State}

/-- A step ends a run as R127 says: the core runs on, has executed HLT, or carries an error. -/
theorem step_status_cases (h : step s = .next t) :
    t.status = .running ∨ (t.status = .halted .normal ∧ fetch s = .ok .hlt) ∨
      ∃ e, t.status = .halted (.fault e) := by
  rcases step_cases h with ⟨hr, ⟨e, rfl⟩ | ⟨i, hf, hc⟩⟩
  · exact .inr (.inr ⟨e, s.raise_status e⟩)
  · rcases hc.status_cases with ⟨rfl, hnormal⟩ | hsame
    · exact .inr (.inl ⟨hnormal, hf⟩)
    · exact .inl (hsame.trans hr)

theorem runFrom_halted {reason : HaltReason} (h : s.status = .halted reason) (budget : Option Nat)
    (cancel : Nat → Bool) (fuel n : Nat) : runFrom budget cancel fuel n s = some s := by
  unfold runFrom
  rw [h]

theorem runFrom_stopped {budget : Option Nat} {cancel : Nat → Bool} {n : Nat} (hr : s.status = .running)
    (hstop : stopWanted budget cancel n = true) (fuel : Nat) :
    runFrom budget cancel fuel n s = some (s.halt .stopped) := by
  unfold runFrom
  rw [hr]
  exact if_pos hstop

theorem runFrom_step {budget : Option Nat} {cancel : Nat → Bool} {n : Nat} (hr : s.status = .running)
    (hstop : ¬ stopWanted budget cancel n = true) (hstep : step s = .next t) (fuel : Nat) :
    runFrom budget cancel (fuel + 1) n s = runFrom budget cancel fuel (n + 1) t := by
  rw [runFrom, hr]
  refine (if_neg hstop).trans ?_
  rw [hstep]

theorem stopWanted_self (cancel : Nat → Bool) (n : Nat) : stopWanted (some n) cancel n = true := by
  simp [stopWanted]

theorem not_stopWanted_noCancel {budget n : Nat} (h : budget ≠ n) : ¬ stopWanted (some budget) noCancel n = true := by
  simpa [stopWanted, noCancel] using h

/-- A run whose fuel lasts as long as its budget ends halted, whatever the cancel signal. -/
theorem runFrom_budget_ends (cancel : Nat → Bool) (fuel n : Nat) (s : State) :
    ∃ t reason, runFrom (some (n + fuel)) cancel fuel n s = some t ∧ t.status = .halted reason := by
  induction fuel generalizing n s with
  | zero =>
    cases hs : s.status with
    | halted reason => exact ⟨s, reason, runFrom_halted hs _ _ _ _, hs⟩
    | running => exact ⟨_, .stopped, runFrom_stopped hs (stopWanted_self cancel n) _, rfl⟩
  | succ fuel ih =>
    cases hs : s.status with
    | halted reason => exact ⟨s, reason, runFrom_halted hs _ _ _ _, hs⟩
    | running =>
      by_cases hstop : stopWanted (some (n + (fuel + 1))) cancel n = true
      · exact ⟨_, .stopped, runFrom_stopped hs hstop _, rfl⟩
      · obtain ⟨t, hstep⟩ := step_answers_next hs
        rw [runFrom_step hs hstop hstep, show n + (fuel + 1) = n + 1 + fuel by omega]
        exact ih (n + 1) t

/-! ### Runs without a cancel signal -/

/-- How a run goes on depends on what is left of its budget, not on the cycles it has counted. -/
theorem runFrom_noCancel_eq (fuel n n' : Nat) (s : State) :
    runFrom (some (n + fuel)) noCancel fuel n s = runFrom (some (n' + fuel)) noCancel fuel n' s := by
  induction fuel generalizing n n' s with
  | zero =>
    cases hs : s.status with
    | halted reason => rw [runFrom_halted hs, runFrom_halted hs]
    | running =>
      exact (runFrom_stopped hs (stopWanted_self noCancel n) 0).trans
        (runFrom_stopped hs (stopWanted_self noCancel n') 0).symm
  | succ fuel ih =>
    cases hs : s.status with
    | halted reason => rw [runFrom_halted hs, runFrom_halted hs]
    | running =>
      obtain ⟨t, hstep⟩ := step_answers_next hs
      rw [runFrom_step hs (not_stopWanted_noCancel (by omega)) hstep,
        runFrom_step hs (not_stopWanted_noCancel (by omega)) hstep,
        show n + (fuel + 1) = n + 1 + fuel by omega, show n' + (fuel + 1) = n' + 1 + fuel by omega]
      exact ih (n + 1) (n' + 1) t

theorem run_halted {reason : HaltReason} (h : s.status = .halted reason) (budget : Nat) :
    run (some budget) noCancel budget s = some s :=
  runFrom_halted h _ _ _ _

theorem resume_stopped (hr : s.status = .running) : resume (s.halt .stopped) = .next s := by
  obtain ⟨mem, regs, pc, status, out, config⟩ := s
  cases hr
  rfl

theorem run_zero (hr : s.status = .running) : run (some 0) noCancel 0 s = some (s.halt .stopped) :=
  runFrom_stopped hr rfl _

theorem run_succ (hr : s.status = .running) (hstep : step s = .next t) (budget : Nat) :
    run (some (budget + 1)) noCancel (budget + 1) s = run (some budget) noCancel budget t := by
  calc run (some (budget + 1)) noCancel (budget + 1) s
      = runFrom (some (budget + 1)) noCancel budget 1 t :=
        runFrom_step hr (not_stopWanted_noCancel (Nat.succ_ne_zero budget)) hstep budget
    _ = runFrom (some (0 + budget)) noCancel budget 0 t := by
        rw [Nat.add_comm budget 1, runFrom_noCancel_eq budget 1 0 t]
    _ = run (some budget) noCancel budget t := by rw [Nat.zero_add, run]

end Sys2Proof.Machine

open Sys2Proof Sys2Proof.Machine

/-- Settles O10: the status is the first thing a step looks at (R67). -/
theorem haltedStateHasNoCycle : Obligations.HaltedStateHasNoCycle := by
  unfold Obligations.HaltedStateHasNoCycle
  intro s reason hhalted
  rw [step, hhalted]

/-- Settles O47: the run loop stops at the budget at the latest, before its fuel is used up. -/
theorem budgetedRunEnds : Obligations.BudgetedRunEnds := by
  unfold Obligations.BudgetedRunEnds
  intro budget cancel s
  have hends := runFrom_budget_ends cancel budget 0 s
  rwa [Nat.zero_add] at hends

/-- Settles O49: resuming tests for Halted(Stopped) alone. -/
theorem onlyAStoppedCoreResumes : Obligations.OnlyAStoppedCoreResumes := by
  unfold Obligations.OnlyAStoppedCoreResumes
  exact fun s hstatus => if_neg hstatus

/-- Settles O48, by induction on the first budget: a run that is stopped at once resumes where it began, and a step leads
to no stopped state of its own. -/
theorem stopThenResumeIsOneRun : Obligations.StopThenResumeIsOneRun := by
  unfold Obligations.StopThenResumeIsOneRun
  intro b1
  induction b1 with
  | zero =>
    intro b2 s s1 s2 u hr hrun _ hresume hsecond
    rw [run_zero hr] at hrun
    cases hrun
    rw [resume_stopped hr] at hresume
    cases hresume
    rwa [Nat.zero_add]
  | succ b1 ih =>
    intro b2 s s1 s2 u hr hrun hstopped hresume hsecond
    obtain ⟨t, hstep⟩ := step_answers_next hr
    rw [run_succ hr hstep] at hrun
    rw [Nat.add_right_comm, run_succ hr hstep]
    rcases step_status_cases hstep with hrun' | ⟨hnormal, -⟩ | ⟨e, hfault⟩
    · exact ih b2 t s1 s2 u hrun' hrun hstopped hresume hsecond
    · rw [run_halted hnormal] at hrun
      cases hrun
      rw [hnormal] at hstopped
      cases hstopped
    · rw [run_halted hfault] at hrun
      cases hrun
      rw [hfault] at hstopped
      cases hstopped

/-- Settles O36: the status cases of a step, and for the loop an induction on the budget. -/
theorem onlyHltOrAnErrorEndsARun : Obligations.OnlyHltOrAnErrorEndsARun := by
  unfold Obligations.OnlyHltOrAnErrorEndsARun
  refine ⟨fun s t => step_status_cases, fun r s hr hf hself => ?_⟩
  have hloop : step s = .next s := by
    rw [step_of_fetch_ok hr hf, exec_jmp, hself]
    rfl
  refine ⟨hloop, fun budget => ?_⟩
  induction budget with
  | zero => exact run_zero hr
  | succ budget ih => rw [run_succ hr hloop, ih]

end

section
/-! Text at the host's side: the reference text of a byte (spec 43_immediate_io_memory.md R97) and a line of a program file
(30_encoding.md R64). -/

namespace Sys2Proof.Machine

/-! ### Decimal text -/

/-- A decimal numeral that begins with 0 is that of zero. -/
theorem eq_zero_of_head_toDigits (n : Nat) (h : (Nat.toDigits 10 n).head? = some '0') : n = 0 := by
  induction n using Nat.strongRecOn with
  | ind n ih =>
    by_cases hn : n < 10
    · rw [Nat.toDigits_of_lt_base hn] at h
      exact Nat.digitChar_eq_zero.mp (Option.some.inj h)
    · rw [Nat.toDigits_of_base_le (by omega) (by omega), List.head?_append_of_ne_nil _ Nat.toDigits_ne_nil] at h
      have := ih (n / 10) (by omega) h
      omega

/-! ### A line of eight binary digits -/

/-- The character of a binary digit. -/
def bitChar (bit : Bool) : Char := if bit then '1' else '0'

/-- The eight binary digits of a byte, the most significant first. -/
def byteDigits (b : Byte) : List Char := [7, 6, 5, 4, 3, 2, 1, 0].map fun k => bitChar (b.getLsbD k)

/-- One digit of a binary literal. -/
def binaryStep (v : Nat) (c : Char) : Option Nat :=
  if c = '0' then some (2 * v) else if c = '1' then some (2 * v + 1) else none

theorem binaryValue_eq (digits : List Char) : binaryValue digits = digits.foldlM binaryStep 0 := rfl

/-- Reading bit `k` after the bits above it gives the number from bit `k` up. -/
theorem binaryStep_bit (n k : Nat) : binaryStep (n / 2 ^ (k + 1)) (bitChar (n.testBit k)) = some (n / 2 ^ k) := by
  rw [Nat.testBit_eq_decide_div_mod_eq, Nat.pow_succ, ← Nat.div_div_eq_div_mul]
  generalize n / 2 ^ k = m
  rcases Nat.mod_two_eq_zero_or_one m with hbit | hbit
  · have hm : 2 * (m / 2) = m := by omega
    simp [binaryStep, bitChar, hbit, hm]
  · have hm : 2 * (m / 2) + 1 = m := by omega
    simp [binaryStep, bitChar, hbit, hm]

/-- The bits below bit `k`, read on from the number above them, give the number. -/
theorem foldlM_binaryStep (n k : Nat) :
    ((List.range k).reverse.map fun i => bitChar (n.testBit i)).foldlM binaryStep (n / 2 ^ k) = some n := by
  induction k with
  | zero => simp
  | succ k ih =>
    rw [List.range_succ, List.reverse_append, List.reverse_singleton, List.singleton_append, List.map_cons,
      List.foldlM_cons, binaryStep_bit]
    exact ih

theorem binaryValue_byteDigits (b : Byte) : binaryValue (byteDigits b) = some b.toNat := by
  have hread := foldlM_binaryStep b.toNat 8
  rw [Nat.div_eq_of_lt b.isLt] at hread
  rw [binaryValue_eq]
  exact hread

/-- A digit is neither white space nor the beginning of a comment. -/
theorem bitChar_plain (bit : Bool) : (bitChar bit).isWhitespace = false ∧ bitChar bit ≠ '#' := by
  cases bit <;> decide

theorem byteDigits_plain {b : Byte} {c : Char} (h : c ∈ byteDigits b) : c.isWhitespace = false ∧ c ≠ '#' := by
  obtain ⟨k, -, rfl⟩ := List.mem_map.mp h
  exact bitChar_plain _

theorem ne_hash_of_isWhitespace {c : Char} (h : c.isWhitespace = true) : c ≠ '#' := by
  rintro rfl
  cases h

/-- White space in front is dropped up to the first character that is none. -/
theorem dropWhile_isWhitespace {space word rest : List Char} (hspace : ∀ c ∈ space, c.isWhitespace = true)
    (hword : ∀ c ∈ word, c.isWhitespace = false) (hne : word ≠ []) :
    (space ++ (word ++ rest)).dropWhile Char.isWhitespace = word ++ rest := by
  rw [List.dropWhile_append_of_pos hspace]
  cases word with
  | nil => exact absurd rfl hne
  | cons c cs => exact List.dropWhile_cons_of_neg (by simp [hword c List.mem_cons_self])

/-- A line is stripped to the word between white space, whatever its comment. -/
theorem stripLine_eq {line left word right : List Char}
    (hbody : line.takeWhile (· ≠ '#') = left ++ word ++ right) (hleft : ∀ c ∈ left, c.isWhitespace = true)
    (hright : ∀ c ∈ right, c.isWhitespace = true) (hword : ∀ c ∈ word, c.isWhitespace = false) (hne : word ≠ []) :
    stripLine line = word := by
  have hend := dropWhile_isWhitespace (space := right.reverse) (word := word.reverse) (rest := [])
    (by simpa using hright) (by simpa using hword) (by simpa using hne)
  rw [List.append_nil] at hend
  rw [stripLine, hbody, List.append_assoc, dropWhile_isWhitespace hleft hword hne, List.reverse_append, hend, List.reverse_reverse]

/-- A line that is stripped to one to eight binary digits is their value. -/
theorem parseLine_eq_byte {line digits : List Char} {v : Nat} (hstrip : stripLine line = digits) (hne : digits ≠ [])
    (hlen : digits.length ≤ 8) (hvalue : binaryValue digits = some v) : parseLine line = .byte (BitVec.ofNat 8 v) := by
  rw [parseLine, hstrip]
  cases digits with
  | nil => exact absurd rfl hne
  | cons c cs => simp only [hlen, if_true, hvalue]

/-- A line whose eight digits stand before the first `#`, between white space, is their byte. -/
theorem parseLine_byteDigits {line left right : List Char} {b : Byte}
    (hbody : line.takeWhile (· ≠ '#') = left ++ byteDigits b ++ right) (hleft : ∀ c ∈ left, c.isWhitespace = true)
    (hright : ∀ c ∈ right, c.isWhitespace = true) : parseLine line = .byte b := by
  have hstrip : stripLine line = byteDigits b :=
    stripLine_eq hbody hleft hright (fun c hc => (byteDigits_plain hc).1) (List.cons_ne_nil _ _)
  refine (parseLine_eq_byte hstrip (List.cons_ne_nil _ _) (Nat.le_refl 8) (binaryValue_byteDigits b)).trans ?_
  rw [BitVec.ofNat_toNat, BitVec.setWidth_eq]

end Sys2Proof.Machine

open Sys2Proof Sys2Proof.Machine

/-- Settles O45: in zeroed memory the byte at pc is 0x00, which is no instruction's. -/
theorem emptyImageIsUnknownOpcode : Obligations.EmptyImageIsUnknownOpcode := by
  unfold Obligations.EmptyImageIsUnknownOpcode
  exact ⟨State.reset, rfl, illegalByteIsUnknownOpcode State.reset rfl (by decide) (by decide) (by decide)⟩

/-- Settles O50: the library's decimal numerals, of which only zero's begins with 0. -/
theorem decimalTextOfAByte : Obligations.DecimalTextOfAByte := by
  unfold Obligations.DecimalTextOfAByte
  refine fun v => ⟨?value, ?digits, fun hzero => ?_⟩
  case value => exact Nat.ofDigitChars_eq_foldl.symm.trans Nat.ofDigitChars_ten_toDigits
  case digits => exact List.all_eq_true.mpr fun c hc => Nat.isDigit_of_mem_toDigits (by omega) (by omega) hc
  · obtain rfl : v = 0#8 := BitVec.eq_of_toNat_eq (eq_zero_of_head_toDigits v.toNat hzero)
    exact ⟨rfl, rfl⟩

/-- Settles O46: neither white space nor a digit begins a comment, so the line is stripped to its eight digits. -/
theorem binaryLineIsItsByte : Obligations.BinaryLineIsItsByte := by
  unfold Obligations.BinaryLineIsItsByte
  intro b left right comment hleft hright
  rw [List.all_eq_true] at hleft hright
  have hplain : ∀ c ∈ left ++ byteDigits b ++ right, decide (c ≠ '#') = true := by
    intro c hc
    rw [List.mem_append, List.mem_append] at hc
    rcases hc with (hc | hc) | hc
    · exact decide_eq_true (ne_hash_of_isWhitespace (hleft c hc))
    · exact decide_eq_true (byteDigits_plain hc).2
    · exact decide_eq_true (ne_hash_of_isWhitespace (hright c hc))
  refine ⟨parseLine_byteDigits ?_ hleft hright, parseLine_byteDigits ?_ hleft hright⟩
  · exact List.takeWhile_eq_self_iff.mpr hplain
  · exact (List.takeWhile_append_of_pos hplain).trans (List.append_nil _)

end

section
/-! Reading UTF-8 back (spec 30_encoding.md R64): bytes that are read as a text are the bytes of its characters. -/

namespace Sys2Proof.Machine

/-! ### One byte -/

theorem utf8Continue_eq_some {p q : Utf8Pending} {b : Byte} (h : utf8Continue p b = some q) :
    ∃ d, d < 64 ∧ b = BitVec.ofNat 8 (0x80 + d) ∧ q = ⟨p.value * 64 + d, p.remaining - 1, p.least⟩ := by
  unfold utf8Continue at h
  split_ifs at h with hb
  refine ⟨b.toNat % 64, Nat.mod_lt _ (by omega), BitVec.eq_of_toNat_eq ?_, (Option.some.inj h).symm⟩
  rw [toNat_byte (by omega)]
  omega

/-- A pending character finishes as the character of its value, if it is no overlong form. -/
theorem utf8Finish_eq_some {p : Utf8Pending} {c : Char} (h : utf8Finish p = some c) :
    c.toNat = p.value ∧ p.least ≤ p.value := by
  unfold utf8Finish at h
  split_ifs at h with hp
  obtain ⟨hleast, hvalid⟩ := hp
  cases h
  refine ⟨?_, hleast⟩
  rw [Char.ofNat, dif_pos hvalid]
  rfl

/-- The first byte of a character: its number of bytes and the bits it gives. -/
theorem utf8Lead_eq_some {b : Byte} {p : Utf8Pending} (h : utf8Lead b = some p) :
    (∃ v, v < 0x80 ∧ b = BitVec.ofNat 8 v ∧ p = ⟨v, 0, 0⟩) ∨
    (∃ v, v < 0x20 ∧ b = BitVec.ofNat 8 (0xC0 + v) ∧ p = ⟨v, 1, 0x80⟩) ∨
    (∃ v, v < 0x10 ∧ b = BitVec.ofNat 8 (0xE0 + v) ∧ p = ⟨v, 2, 0x800⟩) ∨
    (∃ v, v < 0x08 ∧ b = BitVec.ofNat 8 (0xF0 + v) ∧ p = ⟨v, 3, 0x10000⟩) := by
  have hb : ∀ n, b.toNat = n → b = BitVec.ofNat 8 n := by rintro n rfl; simp
  unfold utf8Lead at h
  dsimp only at h
  split_ifs at h with h1 h2 h3 h4 h5
  · exact .inl ⟨b.toNat, h1, hb _ rfl, (Option.some.inj h).symm⟩
  · exact .inr (.inl ⟨b.toNat - 0xC0, by omega, hb _ (by omega), (Option.some.inj h).symm⟩)
  · exact .inr (.inr (.inl ⟨b.toNat - 0xE0, by omega, hb _ (by omega), (Option.some.inj h).symm⟩))
  · exact .inr (.inr (.inr ⟨b.toNat - 0xF0, by omega, hb _ (by omega), (Option.some.inj h).symm⟩))

/-! ### The bytes of a pending character -/

/-- The end of a character: it is finished, and the text goes on with the next one. -/
theorem bind_finish_eq_some {p : Utf8Pending} {rest : List Byte} {text : List Char}
    (h : ((utf8Finish p).bind fun c => (textFrom none rest).map (c :: ·)) = some text) :
    ∃ c cs, text = c :: cs ∧ c.toNat = p.value ∧ p.least ≤ p.value ∧ textFrom none rest = some cs := by
  obtain ⟨c, hc, hmap⟩ := Option.bind_eq_some_iff.mp h
  obtain ⟨cs, hcs, rfl⟩ := Option.map_eq_some_iff.mp hmap
  obtain ⟨hvalue, hleast⟩ := utf8Finish_eq_some hc
  exact ⟨c, cs, rfl, hvalue, hleast, hcs⟩

/-- The next byte of a pending character is a continuation byte. -/
theorem textFrom_pending {p : Utf8Pending} {bytes : List Byte} {text : List Char}
    (h : textFrom (some p) bytes = some text) : ∃ d rest, d < 64 ∧ bytes = BitVec.ofNat 8 (0x80 + d) :: rest ∧
      (if p.remaining - 1 = 0 then
        (utf8Finish ⟨p.value * 64 + d, p.remaining - 1, p.least⟩).bind fun c => (textFrom none rest).map (c :: ·)
      else textFrom (some ⟨p.value * 64 + d, p.remaining - 1, p.least⟩) rest) = some text := by
  cases bytes with
  | nil => cases h
  | cons b rest =>
    rw [textFrom, Option.elim_some] at h
    cases hq : utf8Continue p b with
    | none =>
      rw [hq] at h
      cases h
    | some q =>
      obtain ⟨d, hd, rfl, rfl⟩ := utf8Continue_eq_some hq
      rw [hq] at h
      exact ⟨d, rest, hd, rfl, h⟩

theorem textFrom_pending_more {v r least : Nat} {bytes : List Byte} {text : List Char}
    (h : textFrom (some ⟨v, r + 2, least⟩) bytes = some text) : ∃ d rest, d < 64 ∧
      bytes = BitVec.ofNat 8 (0x80 + d) :: rest ∧ textFrom (some ⟨v * 64 + d, r + 1, least⟩) rest = some text := by
  obtain ⟨d, rest, hd, hbytes, hrest⟩ := textFrom_pending h
  exact ⟨d, rest, hd, hbytes, hrest⟩

theorem textFrom_pending_last {v least : Nat} {bytes : List Byte} {text : List Char}
    (h : textFrom (some ⟨v, 1, least⟩) bytes = some text) : ∃ d rest c cs, d < 64 ∧
      bytes = BitVec.ofNat 8 (0x80 + d) :: rest ∧ text = c :: cs ∧ c.toNat = v * 64 + d ∧ least ≤ c.toNat ∧
      textFrom none rest = some cs := by
  obtain ⟨d, rest, hd, hbytes, hrest⟩ := textFrom_pending h
  obtain ⟨c, cs, htext, hvalue, hleast, hcs⟩ := bind_finish_eq_some hrest
  exact ⟨d, rest, c, cs, hd, hbytes, htext, hvalue, hvalue ▸ hleast, hcs⟩

/-! ### The bytes of a character, by their number -/

theorem utf8Bytes_one {c : Char} {v : Nat} (hc : c.toNat = v) (hv : v < 0x80) : utf8Bytes c = [BitVec.ofNat 8 v] := by
  unfold utf8Bytes
  rw [hc]
  exact if_pos hv

theorem utf8Bytes_two {c : Char} {v d : Nat} (hc : c.toNat = v * 64 + d) (hd : d < 64) (hv : v < 0x20)
    (hleast : 0x80 ≤ c.toNat) : utf8Bytes c = [BitVec.ofNat 8 (0xC0 + v), BitVec.ofNat 8 (0x80 + d)] := by
  have hv' : c.toNat / 64 = v := by omega
  have hd' : c.toNat / 64 ^ 0 % 64 = d := by omega
  unfold utf8Bytes
  dsimp only
  rw [if_neg (by omega), if_pos (by omega), hv', hd']

theorem utf8Bytes_three {c : Char} {v d d' : Nat} (hc : c.toNat = (v * 64 + d) * 64 + d') (hd : d < 64) (hd' : d' < 64)
    (hv : v < 0x10) (hleast : 0x800 ≤ c.toNat) :
    utf8Bytes c = [BitVec.ofNat 8 (0xE0 + v), BitVec.ofNat 8 (0x80 + d), BitVec.ofNat 8 (0x80 + d')] := by
  have h2 : c.toNat / 64 ^ 2 = v := by omega
  have h1 : c.toNat / 64 ^ 1 % 64 = d := by omega
  have h0 : c.toNat / 64 ^ 0 % 64 = d' := by omega
  unfold utf8Bytes
  dsimp only
  rw [if_neg (by omega), if_neg (by omega), if_pos (by omega), h2, h1, h0]

theorem utf8Bytes_four {c : Char} {v d d' d'' : Nat} (hc : c.toNat = ((v * 64 + d) * 64 + d') * 64 + d'') (hd : d < 64)
    (hd' : d' < 64) (hd'' : d'' < 64) (hleast : 0x10000 ≤ c.toNat) :
    utf8Bytes c = [BitVec.ofNat 8 (0xF0 + v), BitVec.ofNat 8 (0x80 + d), BitVec.ofNat 8 (0x80 + d'),
      BitVec.ofNat 8 (0x80 + d'')] := by
  have h3 : c.toNat / 64 ^ 3 = v := by omega
  have h2 : c.toNat / 64 ^ 2 % 64 = d := by omega
  have h1 : c.toNat / 64 ^ 1 % 64 = d' := by omega
  have h0 : c.toNat / 64 ^ 0 % 64 = d'' := by omega
  unfold utf8Bytes
  dsimp only
  rw [if_neg (by omega), if_neg (by omega), if_neg (by omega), h3, h2, h1, h0]

/-! ### Texts -/

/-- A text that is read begins with the bytes of its first character. -/
theorem textFrom_none_cases {bytes : List Byte} {text : List Char} (h : textFrom none bytes = some text) :
    (bytes = [] ∧ text = []) ∨
    ∃ c cs rest, text = c :: cs ∧ bytes = utf8Bytes c ++ rest ∧ textFrom none rest = some cs := by
  cases bytes with
  | nil =>
    cases h
    exact .inl ⟨rfl, rfl⟩
  | cons b bs =>
    right
    rw [textFrom, Option.elim_none] at h
    cases hp : utf8Lead b with
    | none =>
      rw [hp] at h
      cases h
    | some p =>
      rw [hp] at h
      rcases utf8Lead_eq_some hp with ⟨v, hv, rfl, rfl⟩ | ⟨v, hv, rfl, rfl⟩ | ⟨v, hv, rfl, rfl⟩ | ⟨v, hv, rfl, rfl⟩
      · obtain ⟨c, cs, htext, hc, -, hcs⟩ := bind_finish_eq_some h
        exact ⟨c, cs, bs, htext, by rw [utf8Bytes_one hc hv]; rfl, hcs⟩
      · obtain ⟨d, rest, c, cs, hd, rfl, htext, hc, hleast, hcs⟩ := textFrom_pending_last h
        exact ⟨c, cs, rest, htext, by rw [utf8Bytes_two hc hd hv hleast]; rfl, hcs⟩
      · obtain ⟨d, _, hd, rfl, hlast⟩ := textFrom_pending_more h
        obtain ⟨d', rest, c, cs, hd', rfl, htext, hc, hleast, hcs⟩ := textFrom_pending_last hlast
        exact ⟨c, cs, rest, htext, by rw [utf8Bytes_three hc hd hd' hv hleast]; rfl, hcs⟩
      · obtain ⟨d, _, hd, rfl, hmore⟩ := textFrom_pending_more h
        obtain ⟨d', _, hd', rfl, hlast⟩ := textFrom_pending_more hmore
        obtain ⟨d'', rest, c, cs, hd'', rfl, htext, hc, hleast, hcs⟩ := textFrom_pending_last hlast
        exact ⟨c, cs, rest, htext, by rw [utf8Bytes_four hc hd hd' hd'' hleast]; rfl, hcs⟩

theorem textOfBytes_utf8Bytes (text : List Char) : textOfBytes (text.flatMap utf8Bytes) = some text := by
  induction text with
  | nil => rfl
  | cons c cs ih => rw [textOfBytes, List.flatMap_cons, textFrom_utf8Bytes, ← textOfBytes, ih, Option.map_some]

theorem utf8Bytes_of_textOfBytes {bytes : List Byte} {text : List Char} (h : textOfBytes bytes = some text) :
    text.flatMap utf8Bytes = bytes := by
  induction text generalizing bytes with
  | nil =>
    rcases textFrom_none_cases h with ⟨rfl, -⟩ | ⟨c, cs, rest, htext, -, -⟩
    · rfl
    · cases htext
  | cons c cs ih =>
    rcases textFrom_none_cases h with ⟨-, htext⟩ | ⟨c, cs, rest, htext, rfl, hcs⟩
    · cases htext
    · cases htext
      rw [List.flatMap_cons, ih hcs]

end Sys2Proof.Machine

open Sys2Proof Sys2Proof.Machine

/-- Settles O51: the two directions of reading UTF-8; a file that is the bytes of no text is read as none. -/
theorem programFileIsReadAsUtf8 : Obligations.ProgramFileIsReadAsUtf8 := by
  unfold Obligations.ProgramFileIsReadAsUtf8
  refine ⟨fun file text => ⟨utf8Bytes_of_textOfBytes, ?read⟩, fun text s => ?load, fun file s hnone => ?refused⟩
  case read =>
    rintro rfl
    exact textOfBytes_utf8Bytes text
  case load => rw [loadFile, textOfBytes_utf8Bytes]
  case refused =>
    cases hread : textOfBytes file with
    | none => rw [loadFile, hread]
    | some text => exact absurd (utf8Bytes_of_textOfBytes hread) (hnone text)

end
